-- ==== Sys2Proof/Word.lean ====
section
/-! DEFINITION. The widths of the core's values (spec/00_scope.md R6, R8, R9) as names for bit vectors.
All values are unsigned. -/

namespace Sys2Proof

/-- A memory byte, a general register, a timer or an immediate `kk`: 8 bits. -/
abbrev Byte := BitVec 8

/-- An opcode, PC, I or a stack entry: 16 bits. -/
abbrev Word := BitVec 16

/-- The address immediate `nnn`: 12 bits (R71). -/
abbrev Addr12 := BitVec 12

/-- A 4-bit field of an opcode (R71). -/
abbrev Nibble := BitVec 4

/-- The number of a general register V0 to VF, or of a key (R20, R33). -/
abbrev Reg := Fin 16

end Sys2Proof
end

