-- ==== Sys2Proof/Decode.lean ====
section
/-! DEFINITION. The decoder, total on every 16-bit word and rejecting unknown opcodes by name, the encoder, and the opcode
map they follow (spec/30_encoding.md R70 to R76). -/

namespace Sys2Proof

/-! ### The fields of R71 -/

/-- `c = op[15:12]`, the class nibble. -/
def fieldC (op : Word) : Nibble := op.extractLsb' 12 4
/-- `x = op[11:8]`, as a register number. -/
def fieldX (op : Word) : Reg := (op.extractLsb' 8 4).toFin
/-- `y = op[7:4]`, as a register number. -/
def fieldY (op : Word) : Reg := (op.extractLsb' 4 4).toFin
/-- `n = op[3:0]`. -/
def fieldN (op : Word) : Nibble := op.extractLsb' 0 4
/-- `kk = op[7:0]`. -/
def fieldKK (op : Word) : Byte := op.extractLsb' 0 8
/-- `nnn = op[11:0]`. -/
def fieldNNN (op : Word) : Addr12 := op.extractLsb' 0 12

/-! ### Decoding -/

/-- Why a word is no row of R75: it is an unknown opcode (R76). The machine runs it as the no-op of R100. -/
inductive DecodeError where
  | unknownOpcode (op : Word)
  deriving DecidableEq, Repr

/-- Second level of class 0: the whole opcode selects (R74); everything but 00E0 and 00EE is row 3, SYS. -/
def decodeClass0 (op : Word) : Instr :=
  if op = 0x00E0#16 then .cls
  else if op = 0x00EE#16 then .ret
  else .sys (fieldNNN op)

/-- Second level of class 8: `n` selects (R74). -/
def decodeClass8 (op : Word) : Except DecodeError Instr :=
  if fieldN op = 0x0#4 then .ok (.ldReg (fieldX op) (fieldY op))
  else if fieldN op = 0x1#4 then .ok (.orReg (fieldX op) (fieldY op))
  else if fieldN op = 0x2#4 then .ok (.andReg (fieldX op) (fieldY op))
  else if fieldN op = 0x3#4 then .ok (.xorReg (fieldX op) (fieldY op))
  else if fieldN op = 0x4#4 then .ok (.addReg (fieldX op) (fieldY op))
  else if fieldN op = 0x5#4 then .ok (.subReg (fieldX op) (fieldY op))
  else if fieldN op = 0x6#4 then .ok (.shr (fieldX op) (fieldY op))
  else if fieldN op = 0x7#4 then .ok (.subnReg (fieldX op) (fieldY op))
  else if fieldN op = 0xE#4 then .ok (.shl (fieldX op) (fieldY op))
  else .error (.unknownOpcode op)

/-- Second level of class E: `kk` selects (R74). -/
def decodeClassE (op : Word) : Except DecodeError Instr :=
  if fieldKK op = 0x9E#8 then .ok (.skp (fieldX op))
  else if fieldKK op = 0xA1#8 then .ok (.sknp (fieldX op))
  else .error (.unknownOpcode op)

/-- Second level of class F: `kk` selects (R74). -/
def decodeClassF (op : Word) : Except DecodeError Instr :=
  if fieldKK op = 0x07#8 then .ok (.ldVxDt (fieldX op))
  else if fieldKK op = 0x0A#8 then .ok (.ldVxK (fieldX op))
  else if fieldKK op = 0x15#8 then .ok (.ldDtVx (fieldX op))
  else if fieldKK op = 0x18#8 then .ok (.ldStVx (fieldX op))
  else if fieldKK op = 0x1E#8 then .ok (.addI (fieldX op))
  else if fieldKK op = 0x29#8 then .ok (.ldF (fieldX op))
  else if fieldKK op = 0x33#8 then .ok (.ldB (fieldX op))
  else if fieldKK op = 0x55#8 then .ok (.ldMemVx (fieldX op))
  else if fieldKK op = 0x65#8 then .ok (.ldVxMem (fieldX op))
  else .error (.unknownOpcode op)

/-- Dispatch of R74: the class nibble first. Classes 5 and 9 also require `n = 0` (90_conflicts.md C7). -/
def decode (op : Word) : Except DecodeError Instr :=
  if fieldC op = 0x0#4 then .ok (decodeClass0 op)
  else if fieldC op = 0x1#4 then .ok (.jp (fieldNNN op))
  else if fieldC op = 0x2#4 then .ok (.call (fieldNNN op))
  else if fieldC op = 0x3#4 then .ok (.seImm (fieldX op) (fieldKK op))
  else if fieldC op = 0x4#4 then .ok (.sneImm (fieldX op) (fieldKK op))
  else if fieldC op = 0x5#4 then
    (if fieldN op = 0x0#4 then .ok (.seReg (fieldX op) (fieldY op)) else .error (.unknownOpcode op))
  else if fieldC op = 0x6#4 then .ok (.ldImm (fieldX op) (fieldKK op))
  else if fieldC op = 0x7#4 then .ok (.addImm (fieldX op) (fieldKK op))
  else if fieldC op = 0x8#4 then decodeClass8 op
  else if fieldC op = 0x9#4 then
    (if fieldN op = 0x0#4 then .ok (.sneReg (fieldX op) (fieldY op)) else .error (.unknownOpcode op))
  else if fieldC op = 0xA#4 then .ok (.ldI (fieldNNN op))
  else if fieldC op = 0xB#4 then .ok (.jpV0 (fieldNNN op))
  else if fieldC op = 0xC#4 then .ok (.rnd (fieldX op) (fieldKK op))
  else if fieldC op = 0xD#4 then .ok (.drw (fieldX op) (fieldY op) (fieldN op))
  else if fieldC op = 0xE#4 then decodeClassE op
  else decodeClassF op

/-! ### Encoding: the formats of R72, fields laid side by side from bit 15 down -/

/-- A register number as its 4-bit field. -/
def regField (x : Reg) : Nibble := BitVec.ofFin (w := 4) x
/-- Format A: class, nnn. -/
def packA (c : Nibble) (nnn : Addr12) : Word := c ++ nnn
/-- Formats XK and X: class, x, low byte. -/
def packXK (c : Nibble) (x : Reg) (kk : Byte) : Word := c ++ regField x ++ kk
/-- Formats XY and XYN: class, x, y, low nibble. -/
def packXYN (c : Nibble) (x y : Reg) (n : Nibble) : Word := c ++ regField x ++ regField y ++ n

/-- The word of an instruction, from the patterns of R75. -/
def encode : Instr → Word
  | .cls => 0x00E0#16
  | .ret => 0x00EE#16
  | .sys nnn => packA 0x0#4 nnn
  | .jp nnn => packA 0x1#4 nnn
  | .call nnn => packA 0x2#4 nnn
  | .seImm x kk => packXK 0x3#4 x kk
  | .sneImm x kk => packXK 0x4#4 x kk
  | .seReg x y => packXYN 0x5#4 x y 0x0#4
  | .ldImm x kk => packXK 0x6#4 x kk
  | .addImm x kk => packXK 0x7#4 x kk
  | .ldReg x y => packXYN 0x8#4 x y 0x0#4
  | .orReg x y => packXYN 0x8#4 x y 0x1#4
  | .andReg x y => packXYN 0x8#4 x y 0x2#4
  | .xorReg x y => packXYN 0x8#4 x y 0x3#4
  | .addReg x y => packXYN 0x8#4 x y 0x4#4
  | .subReg x y => packXYN 0x8#4 x y 0x5#4
  | .shr x y => packXYN 0x8#4 x y 0x6#4
  | .subnReg x y => packXYN 0x8#4 x y 0x7#4
  | .shl x y => packXYN 0x8#4 x y 0xE#4
  | .sneReg x y => packXYN 0x9#4 x y 0x0#4
  | .ldI nnn => packA 0xA#4 nnn
  | .jpV0 nnn => packA 0xB#4 nnn
  | .rnd x kk => packXK 0xC#4 x kk
  | .drw x y n => packXYN 0xD#4 x y n
  | .skp x => packXK 0xE#4 x 0x9E#8
  | .sknp x => packXK 0xE#4 x 0xA1#8
  | .ldVxDt x => packXK 0xF#4 x 0x07#8
  | .ldVxK x => packXK 0xF#4 x 0x0A#8
  | .ldDtVx x => packXK 0xF#4 x 0x15#8
  | .ldStVx x => packXK 0xF#4 x 0x18#8
  | .addI x => packXK 0xF#4 x 0x1E#8
  | .ldF x => packXK 0xF#4 x 0x29#8
  | .ldB x => packXK 0xF#4 x 0x33#8
  | .ldMemVx x => packXK 0xF#4 x 0x55#8
  | .ldVxMem x => packXK 0xF#4 x 0x65#8

/-! ### The opcode map of R75 -/

/-- The (match, mask) columns of R75, rows 1 to 35 in the table's order. -/
def opcodeMap : List (Word × Word) :=
  [(0x00E0#16, 0xFFFF#16), (0x00EE#16, 0xFFFF#16), (0x0000#16, 0xF000#16), (0x1000#16, 0xF000#16)] ++
  [(0x2000#16, 0xF000#16), (0x3000#16, 0xF000#16), (0x4000#16, 0xF000#16), (0x5000#16, 0xF00F#16)] ++
  [(0x6000#16, 0xF000#16), (0x7000#16, 0xF000#16), (0x8000#16, 0xF00F#16), (0x8001#16, 0xF00F#16)] ++
  [(0x8002#16, 0xF00F#16), (0x8003#16, 0xF00F#16), (0x8004#16, 0xF00F#16), (0x8005#16, 0xF00F#16)] ++
  [(0x8006#16, 0xF00F#16), (0x8007#16, 0xF00F#16), (0x800E#16, 0xF00F#16), (0x9000#16, 0xF00F#16)] ++
  [(0xA000#16, 0xF000#16), (0xB000#16, 0xF000#16), (0xC000#16, 0xF000#16), (0xD000#16, 0xF000#16)] ++
  [(0xE09E#16, 0xF0FF#16), (0xE0A1#16, 0xF0FF#16), (0xF007#16, 0xF0FF#16), (0xF00A#16, 0xF0FF#16)] ++
  [(0xF015#16, 0xF0FF#16), (0xF018#16, 0xF0FF#16), (0xF01E#16, 0xF0FF#16), (0xF029#16, 0xF0FF#16)] ++
  [(0xF033#16, 0xF0FF#16), (0xF055#16, 0xF0FF#16), (0xF065#16, 0xF0FF#16)]

/-- The row of R75, counted from 1, whose instruction this is. -/
def Instr.rowNumber : Instr → Nat
  | .cls => 1
  | .ret => 2
  | .sys _ => 3
  | .jp _ => 4
  | .call _ => 5
  | .seImm _ _ => 6
  | .sneImm _ _ => 7
  | .seReg _ _ => 8
  | .ldImm _ _ => 9
  | .addImm _ _ => 10
  | .ldReg _ _ => 11
  | .orReg _ _ => 12
  | .andReg _ _ => 13
  | .xorReg _ _ => 14
  | .addReg _ _ => 15
  | .subReg _ _ => 16
  | .shr _ _ => 17
  | .subnReg _ _ => 18
  | .shl _ _ => 19
  | .sneReg _ _ => 20
  | .ldI _ => 21
  | .jpV0 _ => 22
  | .rnd _ _ => 23
  | .drw _ _ _ => 24
  | .skp _ => 25
  | .sknp _ => 26
  | .ldVxDt _ => 27
  | .ldVxK _ => 28
  | .ldDtVx _ => 29
  | .ldStVx _ => 30
  | .addI _ => 31
  | .ldF _ => 32
  | .ldB _ => 33
  | .ldMemVx _ => 34
  | .ldVxMem _ => 35

/-- `op` selects row `r` (counted from 1) when `op & mask = match`; row 3 applies only if rows 1 and 2 do not match (R75). -/
def selectsRow (op : Word) (r : Nat) : Bool :=
  match opcodeMap[r - 1]? with
  | none => false
  | some (value, mask) => op &&& mask == value && (r != 3 || (op != 0x00E0#16 && op != 0x00EE#16))

/-- What the decoder reads from a word of `nbits` bits numbered as the opcode table numbers them (bit 0 the least
significant). Every bit above `nbits` is 0. -/
def decodeTableWord (nbits w : Nat) : Option Instr :=
  match decode (BitVec.ofNat 16 (w % 2 ^ nbits)) with
  | .ok i => some i
  | .error _ => none

end Sys2Proof
end

