-- ==== Sys2Proof/Config.lean ====
section
/-! DEFINITION. The parameters that fix a machine (spec/00_scope.md R6, R7), the built-in font (spec/42_display.md
R162), and the one free value of the model, the bytes of a random source (spec/60_exceptions.md R224). -/

namespace Sys2Proof

/-- `FONT_DATA` as the spec's table R162 gives it: glyphs 0 to 7. -/
def fontLow : List Byte :=
  [0xF0, 0x90, 0x90, 0x90, 0xF0] ++ [0x20, 0x60, 0x20, 0x20, 0x70] ++
  [0xF0, 0x10, 0xF0, 0x80, 0xF0] ++ [0xF0, 0x10, 0xF0, 0x10, 0xF0] ++
  [0x90, 0x90, 0xF0, 0x10, 0x10] ++ [0xF0, 0x80, 0xF0, 0x10, 0xF0] ++
  [0xF0, 0x80, 0xF0, 0x90, 0xF0] ++ [0xF0, 0x10, 0x20, 0x40, 0x40]

/-- `FONT_DATA` as the spec's table R162 gives it: glyphs 8 to F. -/
def fontHigh : List Byte :=
  [0xF0, 0x90, 0xF0, 0x90, 0xF0] ++ [0xF0, 0x90, 0xF0, 0x10, 0xF0] ++
  [0xF0, 0x90, 0xF0, 0x90, 0x90] ++ [0xE0, 0x90, 0xE0, 0x90, 0xE0] ++
  [0xF0, 0x80, 0x80, 0x80, 0xF0] ++ [0xE0, 0x90, 0x90, 0x90, 0xE0] ++
  [0xF0, 0x80, 0xF0, 0x80, 0xF0] ++ [0xF0, 0x80, 0xF0, 0x80, 0x80]

/-- The implementation parameters of R6, with the values the spec takes as defaults. They are chosen once, when the
machine is constructed, and nothing changes them (log entry 1). A `none` maximum is the unbounded default of the OPEN
parameters `DISPLAY_MAX_W` and `DISPLAY_MAX_H` (log entry 3). -/
structure Config where
  /-- `MEM_SIZE` -/
  memSize : Nat := 4096
  /-- `PROGRAM_START` -/
  programStart : Nat := 0x200
  /-- `STACK_DEPTH`, written S -/
  stackDepth : Nat := 16
  /-- `DISPLAY_W` -/
  displayW : Nat := 64
  /-- `DISPLAY_H` -/
  displayH : Nat := 32
  /-- `FONT_BASE` -/
  fontBase : Nat := 0x000
  /-- `FONT_GLYPH_BYTES` -/
  fontGlyphBytes : Nat := 5
  /-- `FONT_DATA` -/
  fontData : List Byte := fontLow ++ fontHigh
  /-- `DISPLAY_MAX_W` -/
  displayMaxW : Option Nat := none
  /-- `DISPLAY_MAX_H` -/
  displayMaxH : Option Nat := none
  deriving DecidableEq, Repr

/-- The default configuration of R6. -/
def Config.default : Config := {}

/-- R7: when a configuration is valid. The last two conditions are R162's ("each FONT_GLYPH_BYTES = 5 bytes, 80 bytes in
all"): DEDUCED, safe, log entry 2. -/
abbrev Config.Valid (c : Config) : Prop :=
  c.fontBase + 16 * c.fontGlyphBytes ≤ c.programStart ∧
  c.programStart < c.memSize ∧
  c.memSize ≤ 65536 ∧
  1 ≤ c.stackDepth ∧
  1 ≤ c.displayW ∧ 1 ≤ c.displayH ∧
  c.fontGlyphBytes = 5 ∧ c.fontData.length = 80

/-- FREE VALUE (R224, U3; log entry 6): `randByte g n` is the n-th byte that generator number g delivers. It has no body, so
no proof can know one of its values. -/
opaque Config.randByte : Nat → Nat → Byte

end Sys2Proof
end

