-- ==== Sys2Proof/Machine/State.lean ====
section
/-! DEFINITION. The state of the core (spec/10_state.md), its value after construction (spec/70_reset_and_hazards.md R250,
spec/10_state.md R37), and the reasons a step can stop. -/

namespace Sys2Proof.Machine

/-- The causes of a fatal halt (R34, R212). -/
inductive HaltCause where
  | addressFault
  | stackOverflow
  | stackUnderflow
  deriving DecidableEq, Repr

/-- The halt record of R34. `opcode` is `none` when the fetch itself failed; `addr` is the address that failed, an unbounded
natural number (R9), or `none` for the stack causes. -/
structure HaltRecord where
  cause : HaltCause
  pc : Word
  opcode : Option Word
  addr : Option Nat
  deriving DecidableEq, Repr

/-- The host-installed byte generator (R35, R224) as plain data: the MODEL'S OWN, log entry 6. `script` holds bytes the
generator is known to deliver next; when it is empty the n-th draw of generator `id` is the free value
`Config.randByte id n`. `drawn` counts the draws since the generator was installed. -/
structure RandomSource where
  script : List Byte
  id : Nat
  drawn : Nat
  deriving DecidableEq, Repr

/-- The host's default generator, before any SetRandomSource (R37, last row): nothing is known of its bytes. -/
def RandomSource.hostDefault : RandomSource := { script := [], id := 0, drawn := 0 }

/-- The display buffer: H rows of W one-bit pixels, `true` lit (R31). -/
abbrev Display := List (List Bool)

/-- Memory bytes that differ from what construction leaves: (address, byte) pairs in the canonical form `Memory.wf`. -/
abbrev Memory := List Host.Cell

/-- Everything the spec gives the machine (R20 to R34, R37), and the model's own `cfg` and `rand`. -/
structure State where
  /-- The configuration (R6): fixed, no operation writes it (log entry 1). -/
  cfg : Config
  /-- V0 to VF (R20); VF is `v[15]` (R21). -/
  v : Vector Byte 16
  /-- The index register I (R22). -/
  i : Word
  /-- The program counter (R23). -/
  pc : Word
  /-- `stack[0..S-1]` (R26). -/
  stack : List Word
  /-- The number of return addresses on the stack (R27). -/
  depth : Nat
  /-- The delay timer DT (R29). -/
  dt : Byte
  /-- The sound timer ST (R30). -/
  st : Byte
  /-- The current display width W (R32). -/
  w : Nat
  /-- The current display height H (R32). -/
  h : Nat
  /-- The display buffer, row `y` at index `y` (R31). -/
  pixels : Display
  /-- `Key(0)` to `Key(15)` (R33), written by the host. -/
  keys : Vector Bool 16
  /-- Memory (R50), as its differences from the construction contents. -/
  mem : Memory
  /-- The halt record (R34); `none` while running. -/
  halt : Option HaltRecord
  /-- The installed random source (R35, R224): the model's own. -/
  rand : RandomSource
  deriving DecidableEq, Repr

/-- Reasons a step can stop with a fault: none exist. The spec describes the effect of every error it names (R210 to R216),
so each is a next state with the halt record written (log entry 4). Safe. -/
inductive Fault where
  deriving DecidableEq, Repr

/-- Reasons a step can be refused. -/
inductive Refusal where
  /-- Raised by `exec` for an instruction that has no meaning yet; no arm raises it now. Safe. -/
  | notModelled (mnemonic : String)
  deriving DecidableEq, Repr

/-- What a meaning answers. -/
abbrev Result := Host.Outcome State Fault Refusal

/-- `Construct(config)` of R250 with a given random source installed. Memory lists nothing: an unlisted address reads as the
font or 0x00 (`background`). -/
def State.construct (c : Config) (g : RandomSource) : State :=
  { cfg := c
    v := Vector.replicate 16 0
    i := 0
    pc := BitVec.ofNat 16 c.programStart
    stack := List.replicate c.stackDepth 0
    depth := 0
    dt := 0
    st := 0
    w := c.displayW
    h := c.displayH
    pixels := List.replicate c.displayH (List.replicate c.displayW false)
    keys := Vector.replicate 16 false
    mem := []
    halt := none
    rand := g }

/-- R7: an invalid configuration builds no machine. -/
def State.build (c : Config) : Option State :=
  if c.Valid then some (State.construct c RandomSource.hostDefault) else none

/-- The machine right after construction with the default configuration (R6, R37). -/
def State.reset : State := State.construct Config.default RandomSource.hostDefault

end Sys2Proof.Machine
end

