-- ==== Sys2Proof/Machine/Memory.lean ====
section
/-! DEFINITION. The byte memory (spec/20_memory.md R50 to R54): what an unlisted address reads as, reading and writing one
byte, and the canonical form. Wider accesses are sequences of byte accesses (R10, R57). -/

namespace Sys2Proof.Machine

/-- The font region `[FONT_BASE, FONT_BASE + 80)` (R51). -/
def inFont (c : Config) (a : Nat) : Bool := c.fontBase ≤ a && a < c.fontBase + 80

/-- What an address that lists no byte reads as: the construction contents of R250, `FONT_DATA` in the font region and 0x00
elsewhere. -/
def background (c : Config) (a : Nat) : Byte :=
  if inFont c a then c.fontData.getD (a - c.fontBase) 0 else 0

/-- The byte a memory lists at an address, if it lists one. -/
def Memory.lookup : Memory → Nat → Option Byte
  | [], _ => none
  | (b, v) :: rest, a => if b = a then some v else Memory.lookup rest a

/-- The byte at an address. -/
def Memory.read (c : Config) (m : Memory) (a : Nat) : Byte := (Memory.lookup m a).getD (background c a)

/-- The list with the cell `(a, v)` in front, or without it when `v` is what `a` reads as unlisted. -/
def Memory.consCell (c : Config) (a : Nat) (v : Byte) (rest : Memory) : Memory :=
  if v = background c a then rest else (a, v) :: rest

/-- The memory after byte `v` is stored at address `a`, in canonical form. -/
def Memory.put (c : Config) (a : Nat) (v : Byte) : Memory → Memory
  | [] => Memory.consCell c a v []
  | (b, u) :: rest =>
    if a < b then Memory.consCell c a v ((b, u) :: rest)
    else if a = b then Memory.consCell c a v rest
    else (b, u) :: Memory.put c a v rest

/-- The canonical form: addresses strictly rising, every one inside memory, and no byte equal to what its address reads as
unlisted. -/
abbrev Memory.wf (c : Config) (m : Memory) : Prop :=
  m.Pairwise (fun p q => p.1 < q.1) ∧ ∀ p ∈ m, p.1 < c.memSize ∧ p.2 ≠ background c p.1

/-- `M[a]` of a state, with no bounds check: what Query shows (R225). -/
def byteAt (s : State) (a : Nat) : Byte := Memory.read s.cfg s.mem a

/-- Store a byte with no check, as the host's Load does inside the program region (R222). -/
def pokeByte (s : State) (a : Nat) (v : Byte) : State := { s with mem := Memory.put s.cfg a v s.mem }

/-- `MemRead(addr, 1)` of R53; an error carries the address of the AddressFault. -/
def memRead (s : State) (a : Nat) : Except Nat Byte :=
  if s.cfg.memSize ≤ a then .error a else .ok (byteAt s a)

/-- `MemWrite(addr, 1, v)` of R54: outside memory and inside the font region it is an AddressFault. -/
def memWrite (s : State) (a : Nat) (v : Byte) : Except Nat State :=
  if s.cfg.memSize ≤ a then .error a
  else if inFont s.cfg a then .error a
  else .ok (pokeByte s a v)

/-- `n` bytes from address `a` up, in increasing order; the first address that fails is the error (R217). -/
def readBytes (s : State) (a : Nat) : Nat → Except Nat (List Byte)
  | 0 => .ok []
  | n + 1 =>
    match memRead s a with
    | .error e => .error e
    | .ok b =>
      match readBytes s (a + 1) n with
      | .error e => .error e
      | .ok bs => .ok (b :: bs)

/-- Store bytes from address `a` up, in increasing order; the first address that fails is the error, and then no byte is
stored (R11, R58, R217). -/
def writeBytes (s : State) (a : Nat) : List Byte → Except Nat State
  | [] => .ok s
  | b :: bs =>
    match memWrite s a b with
    | .error e => .error e
    | .ok t => writeBytes t (a + 1) bs

/-- Store bytes from address `a` up with no check (R222). -/
def pokeBytes (s : State) (a : Nat) : List Byte → State
  | [] => s
  | b :: bs => pokeBytes (pokeByte s a b) (a + 1) bs

end Sys2Proof.Machine
end

