-- ==== Sys2Proof/Machine/Ops.lean ====
section
/-! DEFINITION. The operations instructions share: how PC moves (spec/10_state.md R24), the fatal halt (spec/60_exceptions.md
R211), accesses that may fault, the fetch (spec/20_memory.md R55) and the random draw (R224). -/

namespace Sys2Proof.Machine

/-- Sequential: `PC <- (PC + 2) mod 2^16` (R24). -/
def advance (s : State) : Result := .next { s with pc := s.pc + 2 }

/-- Skip: `PC <- (PC + 4) mod 2^16` if the condition holds, otherwise `(PC + 2) mod 2^16` (R24). -/
def skipIf (cond : Bool) (s : State) : Result :=
  .next { s with pc := if cond then s.pc + 4 else s.pc + 2 }

/-- Direct: PC becomes the target, with no added 2 (R24). -/
def jumpTo (target : Word) (s : State) : Result := .next { s with pc := target }

/-- Hold: the Step is Blocked and nothing changes (R213). -/
def hold (s : State) : Result := .next s

/-- `raise C(info)`, the fatal halt of R211: the halt record is written and nothing else changes. `s` is the state at the
start of the Step, so every write of the instruction is discarded. This is the core's only exception entry. The return from
it is the host's Reset alone (R220): `resetMachine`. -/
def raise (cause : HaltCause) (opcode : Option Word) (addr : Option Nat) (s : State) : Result :=
  .next { s with halt := some { cause := cause, pc := s.pc, opcode := opcode, addr := addr } }

/-- The machine after the host's Reset (R227): constructed anew with the same configuration, the installed random source
kept. -/
def resetMachine (s : State) : State := State.construct s.cfg s.rand

/-- Go on with the value of an access, or raise the AddressFault it ended in, recording the opcode of instruction `ins`. -/
def withAccess {α : Type} (ins : Instr) (s : State) (access : Except Nat α) (go : α → Result) : Result :=
  match access with
  | .error a => raise .addressFault (some (encode ins)) (some a) s
  | .ok value => go value

/-- `Fetch()` of R55: the big-endian opcode at PC and PC + 1, the latter not reduced modulo 2^16. -/
def fetch (s : State) : Except Nat Word :=
  match memRead s s.pc.toNat with
  | .error a => .error a
  | .ok hi =>
    match memRead s (s.pc.toNat + 1) with
    | .error a => .error a
    | .ok lo => .ok (hi ++ lo)

/-- `rand()`: the next byte of the installed source, and the source after the draw (R224). -/
def drawByte (g : RandomSource) : Byte × RandomSource :=
  match g.script with
  | b :: rest => (b, { g with script := rest, drawn := g.drawn + 1 })
  | [] => (Config.randByte g.id g.drawn, { g with drawn := g.drawn + 1 })

end Sys2Proof.Machine
end

