-- ==== Sys2Proof/Machine/Operands.lean ====
section
/-! DEFINITION. The operand forms (spec/30_encoding.md R73): a register, an immediate, a key or glyph number, bytes at I. -/

namespace Sys2Proof.Machine

/-- `V[x] <- b` (R10). No register is hardwired (R20). -/
def setV (s : State) (x : Reg) (b : Byte) : State := { s with v := s.v.set x b }

/-- `zext_16(nnn)` (R73). -/
def zextAddr (nnn : Addr12) : Word := nnn.setWidth 16

/-- `zext_16` of a byte (R9). -/
def zextByte (b : Byte) : Word := b.setWidth 16

/-- `b & 0x0F`: the key that V[x] selects (44_timers_keypad.md) and the digit that Fx29 selects (R163). -/
def lowNibble (b : Byte) : Reg := (b.setWidth 4).toFin

/-- The key that V[x] selects is pressed (R190, R191). -/
def keyPressed (s : State) (x : Reg) : Bool := s.keys[lowNibble s.v[x]]

/-- The least k with `Key(k)`, if any key is pressed (R193). -/
def leastKey (s : State) : Option Reg := (List.finRange 16).find? fun k => s.keys[k]

/-- `FONT_BASE + FONT_GLYPH_BYTES * d` (R163). -/
def glyphAddress (c : Config) (d : Reg) : Word := BitVec.ofNat 16 (c.fontBase + c.fontGlyphBytes * d.val)

/-- The hundreds, tens and units digit of a byte, in the order they are stored (R180). -/
def bcdDigits (b : Byte) : List Byte :=
  [BitVec.ofNat 8 (b.toNat / 100), BitVec.ofNat 8 (b.toNat / 10 % 10), BitVec.ofNat 8 (b.toNat % 10)]

/-- V0 to V[x] inclusive, in order (R181). -/
def registersUpTo (s : State) (x : Reg) : List Byte := s.v.toList.take (x.val + 1)

/-- Write bytes to consecutive registers from number `k` up (R182). -/
def loadRegisters (v : Vector Byte 16) (k : Nat) : List Byte → Vector Byte 16
  | [] => v
  | b :: bs => loadRegisters (v.setIfInBounds k b) (k + 1) bs

end Sys2Proof.Machine
end

