-- ==== Sys2Proof/Machine/Flags.lean ====
section
/-! DEFINITION. The flags, all of them values of VF (spec/10_state.md R21; spec/41_register_alu.md R136 to R140, R144). -/

namespace Sys2Proof.Machine

/-- A flag as the byte VF holds: 1 or 0. -/
def flagByte (b : Bool) : Byte := if b then 1 else 0

/-- The carry of 8xy4: `a + b > 255` (R136). -/
def carryFlag (a b : Byte) : Byte := flagByte (a.toNat + b.toNat > 255)

/-- The "no borrow" flag of 8xy5 and 8xy7: minuend >= subtrahend (R137, R139). -/
def noBorrowFlag (minuend subtrahend : Byte) : Byte := flagByte (minuend.toNat ≥ subtrahend.toNat)

/-- The bit a right shift moves out: `a & 1` (R138). -/
def shiftedOutRight (a : Byte) : Byte := a &&& 1

/-- The bit a left shift moves out: `(a >> 7) & 1` (R140). -/
def shiftedOutLeft (a : Byte) : Byte := (a >>> 7) &&& 1

/-- Write V[x], then VF: the flag is written last and wins when x = 15 (R21, D8; log entry 8). -/
def setWithFlag (s : State) (x : Reg) (result flag : Byte) : State :=
  { s with v := (s.v.set x result).set 15 flag }

end Sys2Proof.Machine
end

