-- ==== Sys2Proof/Machine/ControlFlow.lean ====
section
/-! DEFINITION. Control flow (spec/40_control_flow.md R100 to R108). -/

namespace Sys2Proof.Machine

/-- The unknown-opcode no-op (R100). -/
def execUnknown (s : State) : Result := advance s

/-- SYS addr runs the unknown-opcode rule (R100). -/
def execSys (_nnn : Addr12) (s : State) : Result := advance s

/-- RET (R101): the popped address is used as it stands, and the slot keeps its value (R26). -/
def execRet (s : State) : Result :=
  if s.depth = 0 then raise .stackUnderflow (some (encode .ret)) none s
  else jumpTo (s.stack.getD (s.depth - 1) 0) { s with depth := s.depth - 1 }

/-- JP addr (R102). -/
def execJp (nnn : Addr12) (s : State) : Result := jumpTo (zextAddr nnn) s

/-- CALL addr (R103): the address after the CALL is pushed (90_conflicts.md C2). -/
def execCall (nnn : Addr12) (s : State) : Result :=
  if s.depth = s.cfg.stackDepth then raise .stackOverflow (some (encode (.call nnn))) none s
  else jumpTo (zextAddr nnn) { s with stack := s.stack.set s.depth (s.pc + 2), depth := s.depth + 1 }

/-- SE Vx, byte (R104). -/
def execSeImm (x : Reg) (kk : Byte) (s : State) : Result := skipIf (s.v[x] == kk) s

/-- SNE Vx, byte (R105). -/
def execSneImm (x : Reg) (kk : Byte) (s : State) : Result := skipIf (s.v[x] != kk) s

/-- SE Vx, Vy (R106). -/
def execSeReg (x y : Reg) (s : State) : Result := skipIf (s.v[x] == s.v[y]) s

/-- SNE Vx, Vy (R107). -/
def execSneReg (x y : Reg) (s : State) : Result := skipIf (s.v[x] != s.v[y]) s

/-- JP V0, addr (R108): the sum is not masked, at most 0x10FE. -/
def execJpV0 (nnn : Addr12) (s : State) : Result := jumpTo (zextAddr nnn + zextByte s.v[(0 : Reg)]) s

end Sys2Proof.Machine
end

