-- ==== Sys2Proof/Machine/DisplayOps.lean ====
section
/-! DEFINITION. The display: pixels, CLS, the XOR sprite draw with collision, font glyphs (spec/10_state.md R31;
spec/42_display.md R160 to R163). -/

namespace Sys2Proof.Machine

/-- `Pix(x, y)` of a buffer. -/
def pixelAt (d : Display) (x y : Nat) : Bool := (d.getD y []).getD x false

/-- `Pix(x, y) <- b` on a buffer. -/
def setPixel (d : Display) (x y : Nat) (b : Bool) : Display := d.set y ((d.getD y []).set x b)

/-- A buffer of W × H dark pixels. -/
def darkDisplay (w h : Nat) : Display := List.replicate h (List.replicate w false)

/-- `Pix(x, y)` of a state (R10). -/
def pix (s : State) (x y : Nat) : Bool := pixelAt s.pixels x y

/-- The pixels one sprite byte visits, left to right: column `c` for each set bit `7 - c`, wrapped modulo W, all in row
`py` (R161). -/
def rowPoints (w vx py : Nat) (b : Byte) : List (Nat × Nat) :=
  (List.range 8).filterMap fun c => if b.getLsbD (7 - c) then some ((vx + c) % w, py) else none

/-- The pixels a sprite visits, row by row from row `r`, wrapped on both axes (R161). -/
def spritePoints (w h vx vy : Nat) (r : Nat) : List Byte → List (Nat × Nat)
  | [] => []
  | b :: bs => rowPoints w vx ((vy + r) % h) b ++ spritePoints w h vx vy (r + 1) bs

/-- XOR one pixel; `hit` stays set once a lit pixel is about to be turned off (R161). -/
def flipPixel (acc : Display × Bool) (p : Nat × Nat) : Display × Bool :=
  (setPixel acc.1 p.1 p.2 (!pixelAt acc.1 p.1 p.2), acc.2 || pixelAt acc.1 p.1 p.2)

/-- XOR pixels one after the other, each seeing the earlier writes (R11, R161); the buffer and `hit` afterwards. -/
def flipPixels (d : Display) (points : List (Nat × Nat)) : Display × Bool := points.foldl flipPixel (d, false)

/-- The pixel loop of Dxyn on a state: the sprite rows drawn at `(V[x], V[y])`, then VF, then PC (R161). -/
def drawRows (x y : Reg) (s : State) (rows : List Byte) : Result :=
  let drawn := flipPixels s.pixels (spritePoints s.w s.h s.v[x].toNat s.v[y].toNat 0 rows)
  advance { setV s 15 (flagByte drawn.2) with pixels := drawn.1 }

/-- CLS (R160): the current dimensions. -/
def execCls (s : State) : Result := advance { s with pixels := darkDisplay s.w s.h }

/-- DRW Vx, Vy, nibble (R161): the sprite bytes are read first, and a fault commits nothing. -/
def execDrw (x y : Reg) (n : Nibble) (s : State) : Result :=
  withAccess (.drw x y n) s (readBytes s s.i.toNat n.toNat) (drawRows x y s)

/-- LD F, Vx (R163): the low nibble of V[x] selects the glyph. -/
def execLdF (x : Reg) (s : State) : Result := advance { s with i := glyphAddress s.cfg (lowNibble s.v[x]) }

end Sys2Proof.Machine
end

