-- ==== Sys2Proof/Machine/MemoryTransfer.lean ====
section
/-! DEFINITION. BCD store, register block store and load (spec/43_memory_transfer.md R180 to R182). I is unchanged; an
access that raises commits nothing. -/

namespace Sys2Proof.Machine

/-- LD B, Vx (R180). -/
def execLdB (x : Reg) (s : State) : Result :=
  withAccess (.ldB x) s (writeBytes s s.i.toNat (bcdDigits s.v[x])) advance

/-- LD [I], Vx (R181). -/
def execLdMemVx (x : Reg) (s : State) : Result :=
  withAccess (.ldMemVx x) s (writeBytes s s.i.toNat (registersUpTo s x)) advance

/-- LD Vx, [I] (R182). -/
def execLdVxMem (x : Reg) (s : State) : Result :=
  withAccess (.ldVxMem x) s (readBytes s s.i.toNat (x.val + 1)) fun bytes =>
    advance { s with v := loadRegisters s.v 0 bytes }

end Sys2Proof.Machine
end

