-- ==== Sys2Proof/Machine/RegisterAlu.lean ====
section
/-! DEFINITION. Register loads, arithmetic and logic, the index register, random (spec/41_register_alu.md R130 to R144).
Every operand is read from the state before the instruction. -/

namespace Sys2Proof.Machine

/-- LD Vx, byte (R130). -/
def execLdImm (x : Reg) (kk : Byte) (s : State) : Result := advance (setV s x kk)

/-- ADD Vx, byte (R131): modulo 256, no flag. -/
def execAddImm (x : Reg) (kk : Byte) (s : State) : Result := advance (setV s x (s.v[x] + kk))

/-- LD Vx, Vy (R132). -/
def execLdReg (x y : Reg) (s : State) : Result := advance (setV s x s.v[y])

/-- OR Vx, Vy (R133): no flag. -/
def execOrReg (x y : Reg) (s : State) : Result := advance (setV s x (s.v[x] ||| s.v[y]))

/-- AND Vx, Vy (R134): no flag. -/
def execAndReg (x y : Reg) (s : State) : Result := advance (setV s x (s.v[x] &&& s.v[y]))

/-- XOR Vx, Vy (R135): no flag. -/
def execXorReg (x y : Reg) (s : State) : Result := advance (setV s x (s.v[x] ^^^ s.v[y]))

/-- ADD Vx, Vy with carry (R136). -/
def execAddReg (x y : Reg) (s : State) : Result :=
  advance (setWithFlag s x (s.v[x] + s.v[y]) (carryFlag s.v[x] s.v[y]))

/-- SUB Vx, Vy (R137): `Vx - Vy`. -/
def execSubReg (x y : Reg) (s : State) : Result :=
  advance (setWithFlag s x (s.v[x] - s.v[y]) (noBorrowFlag s.v[x] s.v[y]))

/-- SHR Vx (R138): logical, the y field is ignored. -/
def execShr (x _y : Reg) (s : State) : Result :=
  advance (setWithFlag s x (s.v[x] >>> 1) (shiftedOutRight s.v[x]))

/-- SUBN Vx, Vy (R139): `Vy - Vx`. -/
def execSubnReg (x y : Reg) (s : State) : Result :=
  advance (setWithFlag s x (s.v[y] - s.v[x]) (noBorrowFlag s.v[y] s.v[x]))

/-- SHL Vx (R140): the y field is ignored. -/
def execShl (x _y : Reg) (s : State) : Result :=
  advance (setWithFlag s x (s.v[x] <<< 1) (shiftedOutLeft s.v[x]))

/-- LD I, addr (R141). -/
def execLdI (nnn : Addr12) (s : State) : Result := advance { s with i := zextAddr nnn }

/-- ADD I, Vx (R142): modulo 2^16, no flag. -/
def execAddI (x : Reg) (s : State) : Result := advance { s with i := s.i + zextByte s.v[x] }

/-- RND Vx, byte (R143): one byte is drawn, whatever kk is. -/
def execRnd (x : Reg) (kk : Byte) (s : State) : Result :=
  advance { setV s x ((drawByte s.rand).1 &&& kk) with rand := (drawByte s.rand).2 }

end Sys2Proof.Machine
end

