-- ==== Sys2Proof/Machine/TimersKeypad.lean ====
section
/-! DEFINITION. Keypad skips, key wait, delay and sound timers (spec/44_timers_keypad.md R190 to R195). -/

namespace Sys2Proof.Machine

/-- SKP Vx (R190). -/
def execSkp (x : Reg) (s : State) : Result := skipIf (keyPressed s x) s

/-- SKNP Vx (R191). -/
def execSknp (x : Reg) (s : State) : Result := skipIf (!keyPressed s x) s

/-- LD Vx, DT (R192). -/
def execLdVxDt (x : Reg) (s : State) : Result := advance (setV s x s.dt)

/-- LD Vx, K (R193): the lowest pressed key, or Blocked with nothing changed (R213). -/
def execLdVxK (x : Reg) (s : State) : Result :=
  match leastKey s with
  | none => hold s
  | some k => advance (setV s x (BitVec.ofNat 8 k.val))

/-- LD DT, Vx (R194). -/
def execLdDtVx (x : Reg) (s : State) : Result := advance { s with dt := s.v[x] }

/-- LD ST, Vx (R195). -/
def execLdStVx (x : Reg) (s : State) : Result := advance { s with st := s.v[x] }

end Sys2Proof.Machine
end

