-- ==== Sys2Proof/Machine/Cycle.lean ====
section
/-! DEFINITION. One fetch-decode-execute cycle (spec/60_exceptions.md R215, R216), the status a Step returns (R214), and
the codes of statuses and causes (R212, R214). -/

namespace Sys2Proof.Machine

/-- Run an opcode: its row's meaning, or the unknown-opcode no-op (R75, R100). -/
def runOpcode (op : Word) (s : State) : Result :=
  match decode op with
  | .ok ins => exec ins s
  | .error _ => execUnknown s

/-- `Step()` of R215. A halted machine changes nothing (R216); a fetch that raises halts with no opcode (R55, R211). -/
def cycle (s : State) : Result :=
  match s.halt with
  | some _ => .next s
  | none =>
    match fetch s with
    | .error a => raise .addressFault none (some a) s
    | .ok op => runOpcode op s

/-- What a Step returns to the host (R214). It is an output of the Step, not state (R36; log entry 5). -/
inductive StepStatus where
  | ok
  | unknownOpcode (op : Word)
  | blocked
  | halted (cause : HaltCause)
  deriving DecidableEq, Repr

/-- The codes of R212. -/
def causeCode : HaltCause → Nat
  | .addressFault => 1
  | .stackOverflow => 2
  | .stackUnderflow => 3

/-- The codes of R214. -/
def statusCode : StepStatus → Nat
  | .ok => 0
  | .unknownOpcode _ => 1
  | .blocked => 2
  | .halted _ => 3

/-- The status of an instruction that raised nothing: SYS completes as an unknown opcode (R100), Fx0A without a key is
Blocked (R213), every other instruction is Ok (R214). -/
def completionStatus (s : State) : Instr → StepStatus
  | .sys nnn => .unknownOpcode (encode (.sys nnn))
  | .ldVxK _ => if leastKey s = none then .blocked else .ok
  | .cls | .ret | .jp _ | .call _ | .seImm _ _ | .sneImm _ _ | .seReg _ _ | .ldImm _ _ | .addImm _ _
  | .ldReg _ _ | .orReg _ _ | .andReg _ _ | .xorReg _ _ | .addReg _ _ | .subReg _ _ | .shr _ _
  | .subnReg _ _ | .shl _ _ | .sneReg _ _ | .ldI _ | .jpV0 _ | .rnd _ _ | .drw _ _ _ | .skp _
  | .sknp _ | .ldVxDt _ | .ldDtVx _ | .ldStVx _ | .addI _ | .ldF _ | .ldB _ | .ldMemVx _ | .ldVxMem _ => .ok

/-- The halt record an outcome leaves, if it leaves a state at all. -/
def haltOf : Result → Option HaltRecord
  | .next t => t.halt
  | .fault _ => none
  | .refused _ => none

/-- The status of a Step from a state (R214, R216): Halted with the cause if the machine is halted before or after it. -/
def stepStatus (s : State) : StepStatus :=
  match haltOf (cycle s) with
  | some r => .halted r.cause
  | none =>
    match fetch s with
    | .error _ => .halted .addressFault
    | .ok op =>
      match decode op with
      | .ok ins => completionStatus s ins
      | .error _ => .unknownOpcode op

/-- The opcode a Step fetches; a halted machine fetches nothing (R216). -/
def fetchedOpcode (s : State) : Option Word :=
  match s.halt with
  | some _ => none
  | none => (fetch s).toOption

/-- What an attached trace observer is told of a Step: `(pc0, op, status)` (R230). -/
def traceEvent (s : State) : Word × Option Word × StepStatus := (s.pc, fetchedOpcode s, stepStatus s)

/-- Where the host checks place an opcode: PC if the fetch there stays inside memory, else `PROGRAM_START`. -/
def placementPc (s : State) : Word :=
  if s.pc.toNat + 1 < s.cfg.memSize then s.pc else BitVec.ofNat 16 s.cfg.programStart

/-- The state with an opcode stored, high byte first, where the next Step fetches it, and running: it stands for the host's
Load of a program (log entry 13). -/
def placeOpcode (s : State) (op : Word) : State :=
  let at0 := placementPc s
  pokeBytes { s with pc := at0, halt := none } at0.toNat [op.extractLsb' 8 8, op.extractLsb' 0 8]

end Sys2Proof.Machine
end

