-- ==== Sys2Proof/Machine/Step.lean ====
section
/-! DEFINITION. The step function: Step of spec/60_exceptions.md R215. -/

namespace Sys2Proof.Machine

/-- One Step (R215). -/
def step (s : State) : Host.Outcome State Fault Refusal := cycle s

/-- `s` with the instruction of `nbits` bits whose value is `w` stored where `step` fetches next (log entry 13). -/
def State.withFetchWord (s : State) (nbits w : Nat) : State :=
  placeOpcode s (BitVec.ofNat 16 (w % 2 ^ nbits))

end Sys2Proof.Machine
end

