-- ==== Sys2Proof/Machine/HostOps.lean ====
section
/-! DEFINITION. The host interface at the transaction level: Load, Step, TickTimers, SetKeypad, SetRandomSource, Query,
ResizeDisplay and Reset (spec/60_exceptions.md R221 to R228), derived outputs (R28, R229), and schedules of host
operations (R228). -/

namespace Sys2Proof.Machine

/-- TickTimers decrements each timer that is above 0, in every machine state (R221). -/
def tickTimers (s : State) : State :=
  { s with
    dt := if s.dt = 0 then s.dt else s.dt - 1
    st := if s.st = 0 then s.st else s.st - 1 }

/-- Load (R222): the bytes at `PROGRAM_START` up, or `none` for OutOfBounds. -/
def loadProgram (s : State) (bytes : List Byte) : Option State :=
  if bytes.length > s.cfg.memSize - s.cfg.programStart then none
  else some (pokeBytes s s.cfg.programStart bytes)

/-- SetKeypad (R223). -/
def setKeypad (s : State) (keys : Vector Bool 16) : State := { s with keys := keys }

/-- SetRandomSource (R224). -/
def setRandomSource (s : State) (g : RandomSource) : State := { s with rand := g }

/-- A size is above an OPEN maximum; `none` is unbounded (R6, R226). -/
def exceedsMax (size : Nat) : Option Nat → Bool
  | none => false
  | some m => m < size

/-- ResizeDisplay (R226): the buffer is always cleared; `none` for OutOfBounds. -/
def resizeDisplay (s : State) (w h : Nat) : Option State :=
  if w < 1 || h < 1 || exceedsMax w s.cfg.displayMaxW || exceedsMax h s.cfg.displayMaxH then none
  else some { s with w := w, h := h, pixels := darkDisplay w h }

/-- SP as Query reports it: `depth - 1`, or 0xFF when the stack is empty (R28). -/
def stackPointer (s : State) : Nat := if s.depth = 0 then 0xFF else s.depth - 1

/-- The derived output `sound_on = (ST != 0)` (R229). -/
def soundOn (s : State) : Bool := s.st != 0

/-- The snapshot of R225. -/
structure Snapshot where
  v : Vector Byte 16
  i : Word
  pc : Word
  sp : Nat
  depth : Nat
  stack : List Word
  dt : Byte
  st : Byte
  memory : List Byte
  w : Nat
  h : Nat
  pixels : Display
  halt : Option HaltRecord
  deriving DecidableEq, Repr

/-- Query (R225): a snapshot, with `M[0 .. MEM_SIZE-1]` written out. -/
def query (s : State) : Snapshot :=
  { v := s.v, i := s.i, pc := s.pc, sp := stackPointer s, depth := s.depth, stack := s.stack, dt := s.dt, st := s.st
    memory := (List.range s.cfg.memSize).map (byteAt s)
    w := s.w, h := s.h, pixels := s.pixels, halt := s.halt }

/-- The state a Step leaves (R215): `step` answers a next state from every state. -/
def afterStep (s : State) : State :=
  match step s with
  | .next t => t
  | .fault _ => s
  | .refused _ => s

/-- The host operations of R228. -/
inductive HostOp where
  | load (bytes : List Byte)
  | step
  | tickTimers
  | setKeypad (keys : Vector Bool 16)
  | setRandomSource (g : RandomSource)
  | query
  | resizeDisplay (w h : Nat)
  | reset
  deriving DecidableEq, Repr

/-- What a host operation returns to its caller. OutOfBounds is no machine error (R210). -/
inductive HostAnswer where
  | ok
  | outOfBounds
  | status (r : StepStatus)
  | snapshot (q : Snapshot)
  deriving DecidableEq, Repr

/-- Ok with the new state, or OutOfBounds with no state change (R210). -/
def orOutOfBounds (s : State) : Option State → State × HostAnswer
  | some t => (t, .ok)
  | none => (s, .outOfBounds)

/-- One host operation as one indivisible transaction (R228). -/
def hostApply (s : State) : HostOp → State × HostAnswer
  | .load bytes => orOutOfBounds s (loadProgram s bytes)
  | .step => (afterStep s, .status (stepStatus s))
  | .tickTimers => (tickTimers s, .ok)
  | .setKeypad keys => (setKeypad s keys, .ok)
  | .setRandomSource g => (setRandomSource s g, .ok)
  | .query => (s, .snapshot (query s))
  | .resizeDisplay w h => orOutOfBounds s (resizeDisplay s w h)
  | .reset => (resetMachine s, .ok)

/-- The state after the host's operations, in the order the host issues them (R228; 20_memory.md R60). -/
def runSchedule (s : State) : List HostOp → State
  | [] => s
  | op :: ops => runSchedule (hostApply s op).1 ops

end Sys2Proof.Machine
end

