-- ==== Sys2Proof/Safety.lean ====
section
/-! DEFINITION. The terms claims are stated in: the machine invariant, running and halted machines, when an instruction's
accesses succeed, the ends of a run (spec/60_exceptions.md R231), and the pixel count of a sprite draw (spec/42_display.md
R161). -/

namespace Sys2Proof.Machine

/-- The machine is running (R34). -/
abbrev Running (s : State) : Prop := s.halt = none

/-- A halt record that a fatal halt of this state could have written (R211, R212): it holds the state's PC, an address just
when the cause is AddressFault, an opcode unless the fetch failed, and for the stack causes the opcode and the depth that
raise them. -/
abbrev HaltConsistent (s : State) (r : HaltRecord) : Prop :=
  r.pc = s.pc ∧
  (r.addr.isSome ↔ r.cause = .addressFault) ∧
  (r.opcode = none → r.cause = .addressFault) ∧
  (r.cause = .stackOverflow → s.depth = s.cfg.stackDepth ∧ ∃ nnn, r.opcode = some (encode (.call nnn))) ∧
  (r.cause = .stackUnderflow → s.depth = 0 ∧ r.opcode = some (encode .ret))

/-- What every state the machine reaches satisfies. -/
structure Inv (s : State) : Prop where
  /-- The configuration is valid (R7). -/
  config : s.cfg.Valid
  /-- Memory is in canonical form. -/
  memory : Memory.wf s.cfg s.mem
  /-- The font region reads as `FONT_DATA` (R51: "written once at construction"). -/
  font : ∀ k, k < 80 → byteAt s (s.cfg.fontBase + k) = s.cfg.fontData.getD k 0
  /-- The stack has S entries (R26). -/
  stack : s.stack.length = s.cfg.stackDepth
  /-- `depth` is in `[0, S]` (R27). -/
  depth : s.depth ≤ s.cfg.stackDepth
  /-- The display has at least one pixel. -/
  width : 1 ≤ s.w
  height : 1 ≤ s.h
  /-- The buffer has H rows of W pixels (R31, R32). -/
  rows : s.pixels.length = s.h
  columns : ∀ row ∈ s.pixels, row.length = s.w
  /-- A halted machine's record is one its state could have written. -/
  halted : ∀ r, s.halt = some r → HaltConsistent s r

/-- Every address `a, a+1, …, a+n-1` is inside memory: the reads of Dxyn and Fx65 succeed (R53). -/
abbrev Readable (s : State) (a n : Nat) : Prop := a + n ≤ s.cfg.memSize ∨ n = 0

/-- Every address `a, a+1, …, a+n-1` is inside memory and outside the font region: the writes of Fx33 and Fx55 succeed
(R54). -/
abbrev Writable (s : State) (a n : Nat) : Prop := ∀ k < n, a + k < s.cfg.memSize ∧ inFont s.cfg (a + k) = false

/-- The halted state of R211: the record written, everything else as it was. -/
def haltedWith (s : State) (cause : HaltCause) (opcode : Option Word) (addr : Option Nat) : State :=
  { s with halt := some { cause := cause, pc := s.pc, opcode := opcode, addr := addr } }

/-- The Step from this state runs instruction `ins`: the machine is running and the opcode at PC decodes to it (R215). -/
abbrev Decodes (s : State) (ins : Instr) : Prop := Running s ∧ ∃ op, fetch s = .ok op ∧ decode op = .ok ins

/-- Run instructions one after the other, stopping at the first that answers no next state. -/
def execAll : List Instr → State → Result
  | [], s => .next s
  | ins :: rest, s =>
    match exec ins s with
    | .next t => execAll rest t
    | .fault r => .fault r
    | .refused r => .refused r

/-- Two states that differ at most in stack slots at or above `depth`, which no instruction reads (R26). -/
structure SameButStaleSlots (s t : State) : Prop where
  rest : t = { s with stack := t.stack }
  length : t.stack.length = s.stack.length
  live : ∀ k < s.depth, t.stack[k]? = s.stack[k]?

/-- R231 (a): a fatal halt. -/
abbrev EndedByHalt (s : State) : Prop := s.halt ≠ none

/-- R231 (b): the opcode at PC is `1nnn` with `nnn = PC`. -/
abbrev EndedBySelfJump (s : State) : Prop :=
  Running s ∧ ∃ nnn : Addr12, fetch s = .ok (encode (.jp nnn)) ∧ nnn.setWidth 16 = s.pc

/-- Bit `7 - c` of row `r` of the sprite at I: the bit Dxyn draws at column offset `c` of row offset `r` (R161). -/
def spriteBit (s : State) (r c : Nat) : Bool := (byteAt s (s.i.toNat + r)).getLsbD (7 - c)

/-- How often a draw of `n` rows with origin `(vx, vy)` visits pixel `(px, py)`: the number of set sprite bits whose wrapped
position is that pixel (R161). -/
def spriteVisits (s : State) (vx vy n px py : Nat) : Nat :=
  ((List.range n).flatMap fun r => (List.range 8).map fun c => (r, c)).countP fun rc =>
    spriteBit s rc.1 rc.2 && (vx + rc.2) % s.w == px && (vy + rc.1) % s.h == py

end Sys2Proof.Machine
end

