-- ==== Sys2Proof/Certificates/Slice0/Obligations.lean ====
section
/-! DEFINITION. The statements for the provers, from the numbered rules of spec/. Where a statement rests on a decision the
spec marks as its own, or on a choice of the model, its docstring names the decision or the log entry. An equation
`exec i s = .next { s with … }` says the result, the completion and the frame at once: every field not named keeps its
value, and where `mem` is not named every byte of memory reads as before. -/

open Sys2Proof Sys2Proof.Machine

/-- For every well-formed instruction of all 35 rows, with every operand at every value, decode (encode i) is i. (R71,
R72, R75) -/
def Obligations.DecodeEncodeRoundTrip : Prop :=
  ∀ i : Instr, i.WellFormed → decode (encode i) = .ok i

/-- If a word decodes to an instruction, the instruction is well-formed and its encoding is that word: decoding drops no
bit. (R71, R72, R75) -/
def Obligations.EncodeDecodeRoundTrip : Prop :=
  ∀ (op : Word) (i : Instr), decode op = .ok i → i.WellFormed ∧ encode i = op

/-- A word that decodes to an instruction selects that instruction's row of R75 and no other of the 35 rows; a word is
rejected exactly if it selects none of them. So the rows are disjoint (row 3 applying only if rows 1 and 2 do not
match). (R75, 30_encoding.md section 3) -/
def Obligations.DecodeSelectsTheTableRow : Prop :=
  ∀ op : Word,
    (∀ i, decode op = .ok i → ∀ r, 1 ≤ r → r ≤ 35 → (selectsRow op r = true ↔ r = i.rowNumber)) ∧
    ((∃ e, decode op = .error e) ↔ ∀ r, 1 ≤ r → r ≤ 35 → selectsRow op r = false)

/-- A word is rejected, as unknown opcode and by itself, exactly if it is of class 5 or 9 with n not 0, class 8 with n in
8 to D or F, class E with kk not 9E or A1, or class F with kk not one of the nine; and it decodes to SYS exactly if it
is of class 0 and neither 00E0 nor 00EE. The n = 0 check of classes 5 and 9 is the spec's decision D10. (R74, R76,
92_eei_decisions.md D10) -/
def Obligations.UnknownOpcodesAreTheListedOnes : Prop :=
  ∀ op : Word,
    (decode op = .error (.unknownOpcode op) ↔
      (op.toNat / 4096 = 5 ∧ op.toNat % 16 ≠ 0) ∨
      (op.toNat / 4096 = 8 ∧ op.toNat % 16 ∈ [0x8, 0x9, 0xA, 0xB, 0xC, 0xD, 0xF]) ∨
      (op.toNat / 4096 = 9 ∧ op.toNat % 16 ≠ 0) ∨
      (op.toNat / 4096 = 0xE ∧ op.toNat % 256 ∉ [0x9E, 0xA1]) ∨
      (op.toNat / 4096 = 0xF ∧ op.toNat % 256 ∉ [0x07, 0x0A, 0x15, 0x18, 0x1E, 0x29, 0x33, 0x55, 0x65])) ∧
    ((∃ nnn, decode op = .ok (.sys nnn)) ↔ op.toNat / 4096 = 0 ∧ op.toNat ≠ 0x00E0 ∧ op.toNat ≠ 0x00EE)

/-- One word per family, among them the spec's own worked words 6A05, 8AB4, A123 and 0FFF, decodes to the instruction it
stands for. (R72, R75, 95_test_vectors.md section 1) -/
def Obligations.SpecWordsDecode : Prop :=
  decode 0x00E0#16 = .ok .cls ∧ decode 0x00EE#16 = .ok .ret ∧ decode 0x0FFF#16 = .ok (.sys 0xFFF) ∧
    decode 0x2210#16 = .ok (.call 0x210) ∧ decode 0x3342#16 = .ok (.seImm 3 0x42) ∧
    decode 0x6A05#16 = .ok (.ldImm 0xA 0x05) ∧ decode 0x8AB4#16 = .ok (.addReg 0xA 0xB) ∧
    decode 0xA123#16 = .ok (.ldI 0x123) ∧ decode 0xD012#16 = .ok (.drw 0 1 2) ∧
    decode 0xE59E#16 = .ok (.skp 5) ∧ decode 0xF30A#16 = .ok (.ldVxK 3) ∧ decode 0xF255#16 = .ok (.ldMemVx 2)

/-- On a running machine whose PC and PC + 1 are inside memory, let op be the byte at PC followed by the byte at PC + 1.
If op decodes to an instruction, step is exec of it on that state, with nothing added; if op is rejected, step is the
no-op that adds 2 to PC. (R52, R55, R215, R100) -/
def Obligations.StepRunsTheDecodedInstruction : Prop :=
  ∀ (s : State) (op : Word), Running s → s.pc.toNat + 1 < s.cfg.memSize →
    op.toNat = (byteAt s s.pc.toNat).toNat * 256 + (byteAt s (s.pc.toNat + 1)).toNat →
    (∀ i, decode op = .ok i → step s = exec i s) ∧
    (∀ e, decode op = .error e → step s = .next { s with pc := s.pc + 2 })

/-- On a running machine, if PC or PC + 1 is at or above MEM_SIZE, the Step halts: cause AddressFault, the record holds
PC, no opcode, and PC if PC itself is outside, else PC + 1; nothing else changes and the status is
Halted(AddressFault). That PC is checked first is the spec's decision D28, and the record's fields are its decision
D16. (R55, R211, 92_eei_decisions.md D28, D16) -/
def Obligations.FetchOutsideMemoryHalts : Prop :=
  ∀ s : State, Running s → s.cfg.memSize ≤ s.pc.toNat + 1 →
    step s = .next (haltedWith s .addressFault none
      (some (if s.cfg.memSize ≤ s.pc.toNat then s.pc.toNat else s.pc.toNat + 1))) ∧
    stepStatus s = .halted .addressFault

/-- On a halted machine a Step changes nothing and returns Halted with the recorded cause; every host operation but Reset
leaves the halt record as it was, and Reset clears it. Repeating the halt is the spec's decision D17. (R216, R227,
92_eei_decisions.md D17) -/
def Obligations.HaltedMachineStaysHalted : Prop :=
  ∀ (s : State) (r : HaltRecord), s.halt = some r →
    step s = .next s ∧ stepStatus s = .halted r.cause ∧
    (∀ op : HostOp, op ≠ .reset → (hostApply s op).1.halt = some r) ∧
    (hostApply s .reset).1.halt = none

/-- The meaning of SYS adds 2 to PC and changes nothing else. On a running machine that fetches a rejected opcode or one
that decodes to SYS, the Step does the same and returns UnknownOpcode with that opcode (the status is the spec's
decision D23). (R76, R100, R214, 92_eei_decisions.md D23) -/
def Obligations.UnknownOpcodeIsANoOp : Prop :=
  (∀ (s : State) (nnn : Addr12), exec (.sys nnn) s = .next { s with pc := s.pc + 2 }) ∧
    ∀ (s : State) (op : Word), Running s → fetch s = .ok op →
      (decode op = .error (.unknownOpcode op) ∨ ∃ nnn, decode op = .ok (.sys nnn)) →
      step s = .next { s with pc := s.pc + 2 } ∧ stepStatus s = .unknownOpcode op

/-- From every state, step answers a next state: no instruction is left without a meaning. That every error the spec names
is a next state, and never a fault or a refusal of the model, is the model's own choice, log entry 4 (DEDUCED), and no
rule of the spec; what the spec gives is the effect that each such next state has: the no-op of an unknown opcode, the
halt record alone for a fatal error, nothing for Blocked and for a halted machine. (R100, R211, R213, R216,
notes/assumptions/4.md) -/
def Obligations.StepAlwaysAnswersNext : Prop :=
  ∀ s : State, ∃ t, step s = .next t

/-- If the status of a Step is Ok, the machine is running after it; UnknownOpcode(op), op was fetched and PC + 2 is the
only change; Blocked, nothing changed, the opcode was Fx0A and no key was pressed; Halted(cause), either the machine
was already halted with that cause and nothing changed, or the halt record is the only change. That a Step of a halted
machine changes nothing and repeats the cause is R216 and the spec's decision D17, that a fatal halt changes the
record alone R211 and its decision D16 (both log entry 11). The status UnknownOpcode is its decision D23 and conflict
C6; the model computes the status as a function (log entry 5). (R100, R211, R213, R214, R216, 90_conflicts.md C6,
92_eei_decisions.md D16, D17, D23) -/
def Obligations.StatusSaysWhatChanged : Prop :=
  ∀ s t : State, step s = .next t →
    match stepStatus s with
    | .ok => s.halt = none ∧ t.halt = none
    | .unknownOpcode op => fetch s = .ok op ∧ t = { s with pc := s.pc + 2 }
    | .blocked => t = s ∧ (∃ x, Decodes s (.ldVxK x)) ∧ ∀ k : Reg, s.keys[k] = false
    | .halted cause =>
      (∃ r, s.halt = some r ∧ r.cause = cause ∧ t = s) ∨
      (s.halt = none ∧ ∃ op a, t = haltedWith s cause op a)

/-- If a Step of a running machine halts it, the halt record is the only change; the record holds the PC of the Step, the
fetched opcode (none if the fetch failed), and an address exactly if the cause is AddressFault. Precision and the
record's fields are the spec's decision D16. (R211, R34, 92_eei_decisions.md D16) -/
def Obligations.FatalHaltIsPrecise : Prop :=
  ∀ (s t : State) (r : HaltRecord), Running s → step s = .next t → t.halt = some r →
    t = { s with halt := some r } ∧ r.pc = s.pc ∧ r.opcode = (fetch s).toOption ∧
    (r.addr.isSome ↔ r.cause = .addressFault)

/-- If a Step of a running machine halts it: StackOverflow comes from a CALL at depth S; StackUnderflow from a RET at
depth 0; AddressFault from a failed fetch at the recorded address, from Dxyn or Fx65 whose recorded address I + k is
outside memory, or from Fx33 or Fx55 whose recorded address I + k is outside memory or in the font region, k being
below the number of bytes the instruction accesses. The font case is the spec's decision D14. (R210, R212,
92_eei_decisions.md D14) -/
def Obligations.HaltCausesComeFromTheirInstructions : Prop :=
  ∀ (s t : State) (r : HaltRecord), Running s → step s = .next t → t.halt = some r →
    (r.cause = .stackOverflow → (∃ nnn, Decodes s (.call nnn)) ∧ s.depth = s.cfg.stackDepth) ∧
    (r.cause = .stackUnderflow → Decodes s .ret ∧ s.depth = 0) ∧
    (r.cause = .addressFault → ∃ a, r.addr = some a ∧
      (fetch s = .error a ∨
       (∃ x y n k, Decodes s (.drw x y n) ∧ k < n.toNat ∧ a = s.i.toNat + k ∧ s.cfg.memSize ≤ a) ∨
       (∃ x k, Decodes s (.ldVxMem x) ∧ k ≤ x.val ∧ a = s.i.toNat + k ∧ s.cfg.memSize ≤ a) ∨
       (∃ x k, Decodes s (.ldB x) ∧ k < 3 ∧ a = s.i.toNat + k ∧ (s.cfg.memSize ≤ a ∨ inFont s.cfg a = true)) ∨
       (∃ x k, Decodes s (.ldMemVx x) ∧ k ≤ x.val ∧ a = s.i.toNat + k ∧
         (s.cfg.memSize ≤ a ∨ inFont s.cfg a = true))))

/-- For an instruction after which the machine runs, one that raises nothing: JP and CALL set PC to nnn, JP V0 to nnn +
V0, RET to the top of the stack; the six skips add 4 or 2; Fx0A adds 2 or changes nothing; every other instruction
adds 2. These are four of R24's five ways; the fifth, Fault, is in FatalHaltIsPrecise. The wrap modulo 2^16 is the
spec's decision D3, the unmasked sum of JP V0 its decision D31 (both log entry 7). (R24, R101, R102, R103, R108, R193,
92_eei_decisions.md D3, D31) -/
def Obligations.CompletedInstructionsMovePcByTheirKind : Prop :=
  ∀ (s t : State) (i : Instr), Inv s → exec i s = .next t → Running t →
    match i with
    | .jp nnn => t.pc.toNat = nnn.toNat
    | .call nnn => t.pc.toNat = nnn.toNat
    | .jpV0 nnn => t.pc.toNat = nnn.toNat + s.v[(0 : Reg)].toNat
    | .ret => s.stack[s.depth - 1]? = some t.pc
    | .seImm _ _ | .sneImm _ _ | .seReg _ _ | .sneReg _ _ | .skp _ | .sknp _ => t.pc = s.pc + 4 ∨ t.pc = s.pc + 2
    | .ldVxK _ => t.pc = s.pc + 2 ∨ t = s
    | _ => t.pc = s.pc + 2

/-- If an instruction changes V[k], then k is its destination x and it is one of 6xkk, 7xkk, 8xy0 to 8xyE, Cxkk, Fx07,
Fx0A; or k is 15 and it is one of 8xy4 to 8xy7, 8xyE, Dxyn; or it is Fx65 with k at most x. After a flag-writing
instruction that raises nothing VF is 0 or 1. That VF is otherwise left alone is the spec's decision D9, the flag on x
= 15 its decision D8. (R20, R21, 92_eei_decisions.md D8, D9) -/
def Obligations.OnlyDestinationsAndFlagsChangeRegisters : Prop :=
  ∀ (s t : State) (i : Instr) (k : Reg), exec i s = .next t →
    (t.v[k] ≠ s.v[k] →
      match i with
      | .ldImm x _ | .addImm x _ | .ldReg x _ | .orReg x _ | .andReg x _ | .xorReg x _ | .rnd x _
      | .ldVxDt x | .ldVxK x => k = x
      | .addReg x _ | .subReg x _ | .shr x _ | .subnReg x _ | .shl x _ => k = x ∨ k = 15
      | .drw _ _ _ => k = 15
      | .ldVxMem x => k ≤ x
      | _ => False) ∧
    (match i with
      | .addReg _ _ | .subReg _ _ | .shr _ _ | .subnReg _ _ | .shl _ _ =>
        t.v[(15 : Reg)] = 0 ∨ t.v[(15 : Reg)] = 1
      | .drw _ _ _ => s.halt = none → t.halt = none → t.v[(15 : Reg)] = 0 ∨ t.v[(15 : Reg)] = 1
      | _ => True)

/-- If a Step changes I, its instruction is Annn, Fx1E or Fx29; the stack array, CALL; depth, CALL or RET; DT, Fx15; ST,
Fx18; the display buffer, 00E0 or Dxyn; memory, Fx33 or Fx55; the random source, Cxkk. No Step changes the keypad, W,
H or the configuration. (R22, R26, R27, R29, R30, R31, R32, R33, R57, R215, R224, R6) -/
def Obligations.OnlyTheListedInstructionsChangeTheRest : Prop :=
  ∀ s t : State, step s = .next t →
    (t.i ≠ s.i → (∃ nnn, Decodes s (.ldI nnn)) ∨ (∃ x, Decodes s (.addI x)) ∨ ∃ x, Decodes s (.ldF x)) ∧
    (t.stack ≠ s.stack → ∃ nnn, Decodes s (.call nnn)) ∧
    (t.depth ≠ s.depth → (∃ nnn, Decodes s (.call nnn)) ∨ Decodes s .ret) ∧
    (t.dt ≠ s.dt → ∃ x, Decodes s (.ldDtVx x)) ∧
    (t.st ≠ s.st → ∃ x, Decodes s (.ldStVx x)) ∧
    (t.pixels ≠ s.pixels → Decodes s .cls ∨ ∃ x y n, Decodes s (.drw x y n)) ∧
    (t.mem ≠ s.mem → (∃ x, Decodes s (.ldB x)) ∨ ∃ x, Decodes s (.ldMemVx x)) ∧
    (t.rand ≠ s.rand → ∃ x kk, Decodes s (.rnd x kk)) ∧
    t.keys = s.keys ∧ t.w = s.w ∧ t.h = s.h ∧ t.cfg = s.cfg

/-- If a state satisfies Inv (valid configuration, memory in canonical form, the font reading as FONT_DATA, S stack slots,
depth at most S, a display of H rows of W pixels with W and H at least 1, a halt record its state could have written)
and step answers next t, then t satisfies it. (R7, R26, R27, R31, R32, R34, R51, R211) -/
def Obligations.StepKeepsTheInvariant : Prop :=
  ∀ s t : State, Inv s → step s = .next t → Inv t

/-- The state right after construction with the default configuration, which is valid, satisfies Inv. (R7, R37, R250) -/
def Obligations.ResetSatisfiesTheInvariant : Prop :=
  Config.default.Valid ∧ Inv State.reset

/-- For every configuration: if it is valid, it builds a machine, and a machine constructed from it with any random source
satisfies Inv; if it is not, it builds none. The validity conditions are the spec's decision D1, with log entry 2.
(R7, R250, 92_eei_decisions.md D1) -/
def Obligations.ConstructionSatisfiesTheInvariant : Prop :=
  ∀ c : Config,
    (c.Valid → (∃ s, State.build c = some s) ∧ ∀ g, Inv (State.construct c g)) ∧
    (¬ c.Valid → State.build c = none)

/-- From a state that satisfies Inv, every finite sequence of Load, Step, TickTimers, SetKeypad, SetRandomSource, Query,
ResizeDisplay and Reset, in any order and with any arguments, ends in a state that satisfies Inv. (R60, R228,
92_eei_decisions.md D27) -/
def Obligations.SchedulesKeepTheInvariant : Prop :=
  ∀ (ops : List HostOp) (s : State), Inv s → Inv (runSchedule s ops)

/-- From a state that satisfies Inv, after every finite sequence of host operations, Steps of any program among them, each
of the 80 bytes of the font region reads as it did before, and the configuration is the same. That an instruction's
write into the region is an AddressFault is the spec's decision D14. (R6, R51, R54, 92_eei_decisions.md D14) -/
def Obligations.FontIsImmutable : Prop :=
  ∀ (ops : List HostOp) (s : State), Inv s →
    (runSchedule s ops).cfg = s.cfg ∧
    ∀ k < 80, byteAt (runSchedule s ops) (s.cfg.fontBase + k) = byteAt s (s.cfg.fontBase + k)

/-- If two states differ at most in stack slots at or above depth, their Steps give states that again differ at most there
(and in nothing else): no program can observe a popped slot. That popped slots keep their values is the spec's
decision D6. (R26, 91_not_in_source.md N3, 92_eei_decisions.md D6) -/
def Obligations.StaleStackSlotsAreUnobservable : Prop :=
  ∀ s s' t t' : State, SameButStaleSlots s s' → step s = .next t → step s' = .next t' → SameButStaleSlots t t'

/-- If ST alone is changed before a Step, the Step gives the same state but for ST: no instruction reads it. Fx18 sets ST
to V[x]; TickTimers makes it one less while it is above 0; Query reports it. (R30) -/
def Obligations.SoundTimerIsWrittenAndNeverRead : Prop :=
  (∀ (s t t' : State) (b : Byte), step s = .next t → step { s with st := b } = .next t' → t' = { t with st := t'.st }) ∧
    (∀ (s : State) (x : Reg), exec (.ldStVx x) s = .next { s with st := s.v[x], pc := s.pc + 2 }) ∧
    (∀ s : State, (hostApply s .tickTimers).1.st.toNat = s.st.toNat - 1) ∧
    ∀ s : State, (query s).st = s.st

/-- At depth not 0, RET sets PC to the top entry as it stands and depth to depth - 1, and changes nothing else, the popped
slot included. At depth 0 it halts with StackUnderflow, recording opcode 00EE and no address, PC and depth unchanged.
That the slot keeps its value is the spec's decision D6, the record's fields its decision D16. (R101, R211,
92_eei_decisions.md D6, D16) -/
def Obligations.RetReturnsOrUnderflows : Prop :=
  (∀ (s : State) (top : Word), s.depth ≠ 0 → s.stack[s.depth - 1]? = some top →
      exec .ret s = .next { s with pc := top, depth := s.depth - 1 }) ∧
    ∀ s : State, s.depth = 0 → exec .ret s = .next (haltedWith s .stackUnderflow (some 0x00EE#16) none)

/-- JP addr, the word 1nnn, sets PC to nnn zero-extended to 16 bits and changes nothing else; an odd nnn is as legal as an
even one. (R102) -/
def Obligations.JumpSetsPc : Prop :=
  ∀ (s : State) (nnn : Addr12), (encode (.jp nnn)).toNat = 0x1000 + nnn.toNat ∧
    ∃ target : Word, target.toNat = nnn.toNat ∧ exec (.jp nnn) s = .next { s with pc := target }

/-- Below depth S, CALL writes PC + 2 (modulo 2^16) to slot depth, increments depth and sets PC to nnn; nothing else
changes. At depth S it halts with StackOverflow, recording the opcode 2nnn and no address. Pushing PC + 2 is conflict
C2 and the spec's decision D5, the record's fields its decision D16. (R103, 90_conflicts.md C2, 92_eei_decisions.md
D5) -/
def Obligations.CallPushesTheReturnAddressOrOverflows : Prop :=
  ∀ (s : State) (nnn : Addr12),
    (s.depth ≠ s.cfg.stackDepth → ∃ target : Word, target.toNat = nnn.toNat ∧
      exec (.call nnn) s =
        .next { s with stack := s.stack.set s.depth (s.pc + 2), depth := s.depth + 1, pc := target }) ∧
    (s.depth = s.cfg.stackDepth → ∃ op : Word, op.toNat = 0x2000 + nnn.toNat ∧
      exec (.call nnn) s = .next (haltedWith s .stackOverflow (some op) none))

/-- With room on the stack, CALL followed by RET gives PC + 2 and the old depth, and beside the stack slot written changes
nothing else. (R101, R103, 95_test_vectors.md S2) -/
def Obligations.CallThenRetReturnsAfterTheCall : Prop :=
  ∀ (s : State) (nnn : Addr12), s.depth < s.cfg.stackDepth → s.stack.length = s.cfg.stackDepth →
    execAll [.call nnn, .ret] s = .next { s with pc := s.pc + 2, stack := s.stack.set s.depth (s.pc + 2) }

/-- From depth d with S - d calls to any addresses and no RET between, every call succeeds and depth reaches S; the next
CALL, wherever it goes, halts with StackOverflow. (With S = 16 and d = 0: 16 calls succeed and the 17th fails.) (R27,
90_conflicts.md C3, 95_test_vectors.md S3) -/
def Obligations.NestedCallsFillTheStack : Prop :=
  ∀ (targets : List Addr12) (s : State), s.depth + targets.length = s.cfg.stackDepth →
    ∃ t, execAll (targets.map Instr.call) s = .next t ∧ t.depth = s.cfg.stackDepth ∧ t.halt = s.halt ∧
      ∀ nnn, exec (.call nnn) t = .next (haltedWith t .stackOverflow (some (encode (.call nnn))) none)

/-- SE Vx, byte (word 3xkk) adds 4 to PC if V[x] equals kk and 2 otherwise; SNE Vx, byte (word 4xkk) adds 4 if V[x]
differs from kk and 2 otherwise. Nothing else changes. (R104, R105) -/
def Obligations.ImmediateSkipsCompareExactly : Prop :=
  ∀ (s : State) (x : Reg) (kk : Byte),
    (encode (.seImm x kk)).toNat = 0x3000 + x.val * 256 + kk.toNat ∧
    (encode (.sneImm x kk)).toNat = 0x4000 + x.val * 256 + kk.toNat ∧
    exec (.seImm x kk) s = .next { s with pc := if s.v[x] = kk then s.pc + 4 else s.pc + 2 } ∧
    exec (.sneImm x kk) s = .next { s with pc := if s.v[x] ≠ kk then s.pc + 4 else s.pc + 2 }

/-- SE Vx, Vy adds 4 to PC if V[x] equals V[y] and 2 otherwise; SNE Vx, Vy adds 4 if they differ and 2 otherwise. Nothing
else changes. (R106, R107) -/
def Obligations.RegisterSkipsCompareExactly : Prop :=
  ∀ (s : State) (x y : Reg),
    exec (.seReg x y) s = .next { s with pc := if s.v[x] = s.v[y] then s.pc + 4 else s.pc + 2 } ∧
    exec (.sneReg x y) s = .next { s with pc := if s.v[x] ≠ s.v[y] then s.pc + 4 else s.pc + 2 }

/-- JP V0, addr sets PC to nnn plus V0 as numbers, not masked to 12 bits, and changes nothing else. That the sum is not
masked is the spec's decision D31. (R108, 92_eei_decisions.md D31) -/
def Obligations.ComputedJumpAddsV0 : Prop :=
  ∀ (s : State) (nnn : Addr12), ∃ target : Word, target.toNat = nnn.toNat + s.v[(0 : Reg)].toNat ∧
    exec (.jpV0 nnn) s = .next { s with pc := target }

/-- LD Vx, byte (word 6xkk) sets V[x] to kk, LD Vx, Vy (word 8xy0) sets V[x] to V[y]; each adds 2 to PC and changes
nothing else, VF included unless x is 15. (R130, R132) -/
def Obligations.LoadsSetVx : Prop :=
  ∀ (s : State) (x y : Reg) (kk : Byte),
    (encode (.ldImm x kk)).toNat = 0x6000 + x.val * 256 + kk.toNat ∧
    (encode (.ldReg x y)).toNat = 0x8000 + x.val * 256 + y.val * 16 ∧
    exec (.ldImm x kk) s = .next { s with v := s.v.set x kk, pc := s.pc + 2 } ∧
    exec (.ldReg x y) s = .next { s with v := s.v.set x s.v[y], pc := s.pc + 2 }

/-- ADD Vx, byte sets V[x] to (V[x] + kk) mod 256; ADD I, Vx sets I to (I + V[x]) mod 2^16, all 16 bits of it; each adds 2
to PC and changes nothing else. That VF is unchanged unless it is the destination is the spec's decision D9. (R22,
R131, R142, R144, 90_conflicts.md C4, 92_eei_decisions.md D9) -/
def Obligations.PlainAddsWrapWithoutFlag : Prop :=
  ∀ (s : State) (x : Reg),
    (∀ kk : Byte, ∃ r : Byte, r.toNat = (s.v[x].toNat + kk.toNat) % 256 ∧
      exec (.addImm x kk) s = .next { s with v := s.v.set x r, pc := s.pc + 2 }) ∧
    ∃ a : Word, a.toNat = (s.i.toNat + s.v[x].toNat) % 65536 ∧
      exec (.addI x) s = .next { s with i := a, pc := s.pc + 2 }

/-- Each sets V[x] so that every bit is the OR, AND or XOR of the bits of V[x] and V[y], and adds 2 to PC; nothing else
changes, VF included unless x is 15 (the spec's decision D9). (R133, R134, R135, 92_eei_decisions.md D9) -/
def Obligations.LogicOperatesBitwise : Prop :=
  ∀ (s : State) (x y : Reg), ∃ o a e : Byte,
    (∀ k < 8, o.getLsbD k = (s.v[x].getLsbD k || s.v[y].getLsbD k) ∧
      a.getLsbD k = (s.v[x].getLsbD k && s.v[y].getLsbD k) ∧
      e.getLsbD k = (s.v[x].getLsbD k ^^ s.v[y].getLsbD k)) ∧
    exec (.orReg x y) s = .next { s with v := s.v.set x o, pc := s.pc + 2 } ∧
    exec (.andReg x y) s = .next { s with v := s.v.set x a, pc := s.pc + 2 } ∧
    exec (.xorReg x y) s = .next { s with v := s.v.set x e, pc := s.pc + 2 }

/-- ADD Vx, Vy writes (V[x] + V[y]) mod 256 to V[x], then VF: 1 if the sum exceeds 255, else 0; PC advances by 2; nothing
else changes. The operands are read before any write and VF is written last, so for x = 15 VF ends holding the flag:
the spec's decision D8 (conflict C10). (R136, R144, 92_eei_decisions.md D8) -/
def Obligations.AddSetsCarry : Prop :=
  ∀ (s : State) (x y : Reg), ∃ r f : Byte, r.toNat = (s.v[x].toNat + s.v[y].toNat) % 256 ∧
    f.toNat = (if s.v[x].toNat + s.v[y].toNat > 255 then 1 else 0) ∧
    exec (.addReg x y) s = .next { s with v := (s.v.set x r).set 15 f, pc := s.pc + 2 }

/-- SUB writes (V[x] - V[y]) mod 256 and SUBN (V[y] - V[x]) mod 256 to V[x], then VF: 1 if minuend >= subtrahend, else 0;
PC advances by 2; nothing else changes. The operands are read before any write and VF is written last, so for x = 15
VF ends holding the flag: the spec's decision D8 (conflict C10). (R137, R139, R144, 90_conflicts.md C10,
92_eei_decisions.md D8) -/
def Obligations.SubtractionsSetNoBorrow : Prop :=
  ∀ (s : State) (x y : Reg),
    (∃ r f : Byte, r.toNat = (256 + s.v[x].toNat - s.v[y].toNat) % 256 ∧
      f.toNat = (if s.v[x].toNat ≥ s.v[y].toNat then 1 else 0) ∧
      exec (.subReg x y) s = .next { s with v := (s.v.set x r).set 15 f, pc := s.pc + 2 }) ∧
    (∃ r f : Byte, r.toNat = (256 + s.v[y].toNat - s.v[x].toNat) % 256 ∧
      f.toNat = (if s.v[y].toNat ≥ s.v[x].toNat then 1 else 0) ∧
      exec (.subnReg x y) s = .next { s with v := (s.v.set x r).set 15 f, pc := s.pc + 2 })

/-- SHR writes V[x] div 2 to V[x], then VF the old bit 0; SHL writes (2 V[x]) mod 256, then VF the old bit 7; the y field
does not matter; PC advances by 2; nothing else changes. The operands are read before any write and VF is written
last, so for x = 15 VF ends holding the flag: the spec's decision D8 (conflict C10). (R138, R140, R144,
92_eei_decisions.md D8) -/
def Obligations.ShiftsSetTheBitShiftedOut : Prop :=
  ∀ (s : State) (x y : Reg),
    (∃ r f : Byte, r.toNat = s.v[x].toNat / 2 ∧ f.toNat = s.v[x].toNat % 2 ∧
      exec (.shr x y) s = .next { s with v := (s.v.set x r).set 15 f, pc := s.pc + 2 }) ∧
    (∃ r f : Byte, r.toNat = s.v[x].toNat * 2 % 256 ∧ f.toNat = s.v[x].toNat / 128 ∧
      exec (.shl x y) s = .next { s with v := (s.v.set x r).set 15 f, pc := s.pc + 2 })

/-- LD I, addr (word Annn) sets I to nnn zero-extended to 16 bits and adds 2 to PC; nothing else changes. (R141) -/
def Obligations.LoadIndexSetsI : Prop :=
  ∀ (s : State) (nnn : Addr12), (encode (.ldI nnn)).toNat = 0xA000 + nnn.toNat ∧
    ∃ a : Word, a.toNat = nnn.toNat ∧ exec (.ldI nnn) s = .next { s with i := a, pc := s.pc + 2 }

/-- RND Vx, byte takes the next byte b of the installed source (any byte: it is the head of the source's known bytes, or
the free value of the draw), sets V[x] to b AND kk, and adds 2 to PC; the source has moved on by that one byte, and
nothing else changes. That exactly one byte is drawn is the spec's decision D25; the source as plain data is the
model's log entry 6. (R143, R224, 92_eei_decisions.md D25) -/
def Obligations.RandomMasksOneDrawnByte : Prop :=
  ∀ (s : State) (x : Reg) (kk : Byte),
    (∀ b rest, s.rand.script = b :: rest →
      exec (.rnd x kk) s = .next { s with
        v := s.v.set x (b &&& kk), pc := s.pc + 2
        rand := { s.rand with script := rest, drawn := s.rand.drawn + 1 } }) ∧
    (s.rand.script = [] →
      exec (.rnd x kk) s = .next { s with
        v := s.v.set x (Config.randByte s.rand.id s.rand.drawn &&& kk), pc := s.pc + 2
        rand := { s.rand with drawn := s.rand.drawn + 1 } })

/-- CLS (word 00E0) leaves a buffer of H rows of W pixels, every one dark, and adds 2 to PC; nothing else changes, VF
included. (R160) -/
def Obligations.ClearDarkensEveryPixel : Prop :=
  ∀ s : State, encode .cls = 0x00E0#16 ∧ ∃ d : Display, exec .cls s = .next { s with pixels := d, pc := s.pc + 2 } ∧
    d.length = s.h ∧ (∀ row ∈ d, row.length = s.w) ∧ ∀ px < s.w, ∀ py < s.h, pixelAt d px py = false

/-- In a state that satisfies Inv, if the n sprite bytes are inside memory, DRW leaves each pixel of the grid flipped as
often as set sprite bits fall on it (origin (V[x], V[y]), bit 7 leftmost, both axes wrapping, whatever W and H are),
keeps the buffer's shape, sets VF to 1 exactly if some pixel that was lit is visited or some pixel is visited twice,
else to 0, and adds 2 to PC; nothing else changes. Bit order, wrapping origin, n = 0 and the collision of a self-
overlapping draw are the spec's decision D18. (R161, R31, 92_eei_decisions.md D18) -/
def Obligations.DrawXorsTheSpriteAndDetectsCollision : Prop :=
  ∀ (s : State) (x y : Reg) (n : Nibble), Inv s → Readable s s.i.toNat n.toNat →
    ∃ (d : Display) (f : Byte),
      exec (.drw x y n) s = .next { s with pixels := d, v := s.v.set 15 f, pc := s.pc + 2 } ∧
      d.length = s.h ∧ (∀ row ∈ d, row.length = s.w) ∧
      (∀ px < s.w, ∀ py < s.h, pixelAt d px py =
        (pix s px py ^^ decide (spriteVisits s s.v[x].toNat s.v[y].toNat n.toNat px py % 2 = 1))) ∧
      (f = 0 ∨ f = 1) ∧
      (f = 1 ↔ ∃ px < s.w, ∃ py < s.h,
        (pix s px py = true ∧ 1 ≤ spriteVisits s s.v[x].toNat s.v[y].toNat n.toNat px py) ∨
        2 ≤ spriteVisits s s.v[x].toNat s.v[y].toNat n.toNat px py)

/-- In a state that satisfies Inv with readable sprite bytes, let DRW give t. If V[x] and V[y] are the same in t (the same
position), a second DRW gives a state with exactly the pixels from before the first; and if the display was dark
before and the first draw lit some pixel, the second sets VF to 1. (R161, 95_test_vectors.md S8) -/
def Obligations.DrawingTwiceRestoresTheDisplay : Prop :=
  ∀ (s t : State) (x y : Reg) (n : Nibble), Inv s → Readable s s.i.toNat n.toNat →
    exec (.drw x y n) s = .next t → t.v[x] = s.v[x] → t.v[y] = s.v[y] →
    ∃ u, exec (.drw x y n) t = .next u ∧ u.pixels = s.pixels ∧
      ((∀ px < s.w, ∀ py < s.h, pix s px py = false) → (∃ px < s.w, ∃ py < s.h, pix t px py = true) →
        u.v[(15 : Reg)] = 1)

/-- In a state that satisfies Inv, LD F, Vx sets I to FONT_BASE + 5d with d = V[x] mod 16 and adds 2 to PC, and nothing
else changes; that address is below PROGRAM_START, and the five bytes there are bytes 5d to 5d + 4 of FONT_DATA. The
low nibble, the stride and the font's place are the spec's decision D13. (R162, R163, 92_eei_decisions.md D13) -/
def Obligations.GlyphAddressPointsAtTheGlyph : Prop :=
  ∀ (s : State) (x : Reg), Inv s → ∃ a : Word, a.toNat = s.cfg.fontBase + 5 * (s.v[x].toNat % 16) ∧
    exec (.ldF x) s = .next { s with i := a, pc := s.pc + 2 } ∧ a.toNat < s.cfg.programStart ∧
    ∀ j < 5, byteAt s (a.toNat + j) = s.cfg.fontData.getD (5 * (s.v[x].toNat % 16) + j) 0

/-- MemWrite of v at a succeeds exactly if a is below MEM_SIZE and not in [FONT_BASE, FONT_BASE + 80), and otherwise is an
AddressFault at a; after a success from canonical memory, a reads as v, every other address as before, memory is
canonical again, and nothing but memory changed. The font check is the spec's decision D14. (R53, R54,
92_eei_decisions.md D14) -/
def Obligations.ByteWriteThenRead : Prop :=
  ∀ (s : State) (a : Nat) (v : Byte),
    (a < s.cfg.memSize ∧ ¬ (s.cfg.fontBase ≤ a ∧ a < s.cfg.fontBase + 80) → ∃ t, memWrite s a v = .ok t ∧
      t = { s with mem := t.mem } ∧
      (Memory.wf s.cfg s.mem → Memory.wf t.cfg t.mem ∧ ∀ b, byteAt t b = if b = a then v else byteAt s b)) ∧
    (¬ (a < s.cfg.memSize ∧ ¬ (s.cfg.fontBase ≤ a ∧ a < s.cfg.fontBase + 80)) → memWrite s a v = .error a)

/-- From canonical memory with I, I + 1 and I + 2 writable, LD B, Vx stores V[x] div 100, (V[x] div 10) mod 10 and V[x]
mod 10 there; every other address reads as before; PC advances by 2 and nothing else changes. That I is unchanged is
the spec's decision D15. (R180, 92_eei_decisions.md D15) -/
def Obligations.BcdStoresThreeDigits : Prop :=
  ∀ (s : State) (x : Reg), Memory.wf s.cfg s.mem → Writable s s.i.toNat 3 →
    ∃ t, exec (.ldB x) s = .next t ∧ t = { s with mem := t.mem, pc := s.pc + 2 } ∧
      (byteAt t s.i.toNat).toNat = s.v[x].toNat / 100 ∧
      (byteAt t (s.i.toNat + 1)).toNat = s.v[x].toNat / 10 % 10 ∧
      (byteAt t (s.i.toNat + 2)).toNat = s.v[x].toNat % 10 ∧
      ∀ a, a < s.i.toNat ∨ s.i.toNat + 3 ≤ a → byteAt t a = byteAt s a

/-- From canonical memory with I to I + x writable, LD [I], Vx stores V[k] at I + k for every k from 0 to x; every other
address reads as before; PC advances by 2 and nothing else changes. That I is unchanged is the spec's decision D15.
(R181, 92_eei_decisions.md D15) -/
def Obligations.BlockStoreWritesV0ToVx : Prop :=
  ∀ (s : State) (x : Reg), Memory.wf s.cfg s.mem → Writable s s.i.toNat (x.val + 1) →
    ∃ t, exec (.ldMemVx x) s = .next t ∧ t = { s with mem := t.mem, pc := s.pc + 2 } ∧
      (∀ k : Reg, k ≤ x → byteAt t (s.i.toNat + k.val) = s.v[k]) ∧
      ∀ a, a < s.i.toNat ∨ s.i.toNat + x.val < a → byteAt t a = byteAt s a

/-- With I to I + x inside memory (the font region included), LD Vx, [I] sets V[k] to the byte at I + k for every k from 0
to x, leaves the other registers alone, and adds 2 to PC; nothing else changes, memory included. That I is unchanged
is the spec's decision D15. (R182, 92_eei_decisions.md D15) -/
def Obligations.BlockLoadReadsV0ToVx : Prop :=
  ∀ (s : State) (x : Reg), Readable s s.i.toNat (x.val + 1) →
    ∃ t, exec (.ldVxMem x) s = .next t ∧ t = { s with v := t.v, pc := s.pc + 2 } ∧
      ∀ k : Reg, t.v[k] = if k ≤ x then byteAt s (s.i.toNat + k.val) else s.v[k]

/-- If I + k is the first of the n sprite bytes of Dxyn (k below n), or of the x + 1 bytes of Fx65 (k at most x), that is
outside memory, the instruction halts with AddressFault recording its opcode and I + k, and nothing else changes: no
pixel, no register, not PC. The order is the spec's decision D28, the precision its decision D16. (R161, R182, R211,
R217, 92_eei_decisions.md D16, D28) -/
def Obligations.ReadsOutsideMemoryHalt : Prop :=
  ∀ (s : State) (x : Reg) (k : Nat), s.cfg.memSize ≤ s.i.toNat + k → (∀ j < k, s.i.toNat + j < s.cfg.memSize) →
    (∀ (y : Reg) (n : Nibble), k < n.toNat → exec (.drw x y n) s =
      .next (haltedWith s .addressFault (some (encode (.drw x y n))) (some (s.i.toNat + k)))) ∧
    (k ≤ x.val → exec (.ldVxMem x) s =
      .next (haltedWith s .addressFault (some (encode (.ldVxMem x))) (some (s.i.toNat + k))))

/-- If I + k is the first address of the three of Fx33 (k below 3), or of the x + 1 of Fx55 (k at most x), that is outside
memory or in the font region, the instruction halts with AddressFault recording its opcode and I + k, and nothing else
changes: no byte of memory. The font case is the spec's decision D14, the order D28, the precision D16. (R180, R181,
R211, R217, 92_eei_decisions.md D14, D16, D28) -/
def Obligations.RefusedStoresHalt : Prop :=
  ∀ (s : State) (x : Reg) (k : Nat), (s.cfg.memSize ≤ s.i.toNat + k ∨ inFont s.cfg (s.i.toNat + k) = true) →
    Writable s s.i.toNat k →
    (k < 3 → exec (.ldB x) s =
      .next (haltedWith s .addressFault (some (encode (.ldB x))) (some (s.i.toNat + k)))) ∧
    (k ≤ x.val → exec (.ldMemVx x) s =
      .next (haltedWith s .addressFault (some (encode (.ldMemVx x))) (some (s.i.toNat + k))))

/-- From canonical memory, after a completed Fx55, a fetch at an address whose two bytes lie in the stored block gives the
two registers stored there, high byte first: no fence is needed. This is the spec's decision D27. (R62, R254, R52,
92_eei_decisions.md D27) -/
def Obligations.FetchSeesStoredBytes : Prop :=
  ∀ (s t : State) (x k k' : Reg) (at0 : Word), Memory.wf s.cfg s.mem → Writable s s.i.toNat (x.val + 1) →
    exec (.ldMemVx x) s = .next t → at0.toNat = s.i.toNat + k.val → k'.val = k.val + 1 → k' ≤ x →
    ∃ op : Word, fetch { t with pc := at0 } = .ok op ∧ op.toNat = s.v[k].toNat * 256 + s.v[k'].toNat

/-- LD Vx, DT (word Fx07) sets V[x] to DT; LD DT, Vx (Fx15) sets DT to V[x]; LD ST, Vx (Fx18) sets ST to V[x]; each adds 2
to PC and changes nothing else. (R192, R194, R195) -/
def Obligations.TimerTransfersCopyTheRegister : Prop :=
  ∀ (s : State) (x : Reg),
    (encode (.ldVxDt x)).toNat = 0xF007 + x.val * 256 ∧ (encode (.ldDtVx x)).toNat = 0xF015 + x.val * 256 ∧
    (encode (.ldStVx x)).toNat = 0xF018 + x.val * 256 ∧
    exec (.ldVxDt x) s = .next { s with v := s.v.set x s.dt, pc := s.pc + 2 } ∧
    exec (.ldDtVx x) s = .next { s with dt := s.v[x], pc := s.pc + 2 } ∧
    exec (.ldStVx x) s = .next { s with st := s.v[x], pc := s.pc + 2 }

/-- With k = V[x] mod 16, SKP adds 4 to PC if Key(k) is pressed and 2 otherwise, SKNP the other way round; nothing else
changes. Polarity and the low nibble are the spec's decision D11. (R190, R191, 92_eei_decisions.md D11) -/
def Obligations.KeySkipsTestTheSelectedKey : Prop :=
  ∀ (s : State) (x k : Reg), k.val = s.v[x].toNat % 16 →
    exec (.skp x) s = .next { s with pc := if s.keys[k] = true then s.pc + 4 else s.pc + 2 } ∧
    exec (.sknp x) s = .next { s with pc := if s.keys[k] = false then s.pc + 4 else s.pc + 2 }

/-- If Key(k) is pressed and no lower key is, LD Vx, K sets V[x] to k and adds 2 to PC, and nothing else changes. If no
key is pressed, nothing at all changes, and a Step that runs it returns Blocked. Lowest key and level sensitivity are
the spec's decision D12. (R193, R213, 92_eei_decisions.md D12) -/
def Obligations.KeyWaitTakesTheLowestKeyOrBlocks : Prop :=
  ∀ (s : State) (x : Reg),
    (∀ k : Reg, s.keys[k] = true → (∀ j : Reg, j < k → s.keys[j] = false) → ∃ b : Byte, b.toNat = k.val ∧
      exec (.ldVxK x) s = .next { s with v := s.v.set x b, pc := s.pc + 2 }) ∧
    ((∀ k : Reg, s.keys[k] = false) →
      exec (.ldVxK x) s = .next s ∧ (Decodes s (.ldVxK x) → step s = .next s ∧ stepStatus s = .blocked))

/-- TickTimers sets DT and ST each to one less, or leaves it at 0, and changes nothing else, whether the machine runs, is
blocked or halted (the spec's decision D20). (R221, 92_eei_decisions.md D20) -/
def Obligations.TickDecrementsTimersToZero : Prop :=
  ∀ s : State, ∃ d e : Byte, d.toNat = s.dt.toNat - 1 ∧ e.toNat = s.st.toNat - 1 ∧
    hostApply s .tickTimers = ({ s with dt := d, st := e }, .ok)

/-- In a state that satisfies Inv: an image of at most MEM_SIZE - PROGRAM_START bytes is copied to PROGRAM_START up with
answer Ok, every other address reads as before and nothing but memory changes; a longer one is answered OutOfBounds
and nothing changes. That Load is allowed in every machine state is the spec's decision D26. (R222,
92_eei_decisions.md D26) -/
def Obligations.LoadCopiesOrIsOutOfBounds : Prop :=
  ∀ (s : State) (b : List Byte), Inv s →
    (b.length ≤ s.cfg.memSize - s.cfg.programStart → ∃ t, hostApply s (.load b) = (t, .ok) ∧
      t = { s with mem := t.mem } ∧ (∀ k < b.length, byteAt t (s.cfg.programStart + k) = b.getD k 0) ∧
      ∀ a, a < s.cfg.programStart ∨ s.cfg.programStart + b.length ≤ a → byteAt t a = byteAt s a) ∧
    (s.cfg.memSize - s.cfg.programStart < b.length → hostApply s (.load b) = (s, .outOfBounds))

/-- SetKeypad sets Key(i) to k[i] for every i and changes nothing else; no Step changes a key. (R223) -/
def Obligations.SetKeypadWritesEveryKeyAndNoStepWritesAny : Prop :=
  (∀ (s : State) (k : Vector Bool 16), hostApply s (.setKeypad k) = ({ s with keys := k }, .ok)) ∧
    ∀ s t : State, step s = .next t → t.keys = s.keys

/-- For w and h at least 1 and within the maxima, where they are set, ResizeDisplay answers Ok with W = w, H = h and a
buffer of h rows of w dark pixels, nothing else changed, even at the same size; otherwise it answers OutOfBounds and
changes nothing. The bounds are the spec's decision D22 (OPEN), the unset maximum log entry 3. (R226,
92_eei_decisions.md D22) -/
def Obligations.ResizeClearsOrIsOutOfBounds : Prop :=
  ∀ (s : State) (w h : Nat),
    (1 ≤ w ∧ 1 ≤ h ∧ (∀ m, s.cfg.displayMaxW = some m → w ≤ m) ∧ (∀ m, s.cfg.displayMaxH = some m → h ≤ m) →
      hostApply s (.resizeDisplay w h) =
        ({ s with w := w, h := h, pixels := List.replicate h (List.replicate w false) }, .ok)) ∧
    (¬ (1 ≤ w ∧ 1 ≤ h ∧ (∀ m, s.cfg.displayMaxW = some m → w ≤ m) ∧ (∀ m, s.cfg.displayMaxH = some m → h ≤ m)) →
      hostApply s (.resizeDisplay w h) = (s, .outOfBounds))

/-- After Reset from any state whose configuration is valid: V0 to VF, I, DT and ST are 0, PC is PROGRAM_START, depth 0, S
stack slots of 0, W and H the configured size with every pixel dark, no key pressed, no halt record, the font region
reads as FONT_DATA and every other address as 0x00; configuration and random source are kept. The zero fill of memory,
keypad and stack are the spec's decisions D21 and D37. (R37, R227, R250, R251, 92_eei_decisions.md D21, D37) -/
def Obligations.ResetGivesTheConstructionValues : Prop :=
  ∀ s : State, s.cfg.Valid → ∃ t, hostApply s .reset = (t, .ok) ∧
    (∀ k : Reg, t.v[k] = 0) ∧ t.i = 0 ∧ t.pc.toNat = s.cfg.programStart ∧ t.depth = 0 ∧
    t.stack = List.replicate s.cfg.stackDepth 0 ∧ t.dt = 0 ∧ t.st = 0 ∧ t.w = s.cfg.displayW ∧ t.h = s.cfg.displayH ∧
    t.pixels = List.replicate s.cfg.displayH (List.replicate s.cfg.displayW false) ∧
    (∀ k : Reg, t.keys[k] = false) ∧ t.halt = none ∧
    (∀ a, byteAt t a = if s.cfg.fontBase ≤ a ∧ a < s.cfg.fontBase + 80
      then s.cfg.fontData.getD (a - s.cfg.fontBase) 0 else 0) ∧
    t.cfg = s.cfg ∧ t.rand = s.rand

/-- Query answers a snapshot and changes nothing: V0 to VF, I, PC, depth, the stack, DT, ST, W, H, the pixels and the halt
record as they are, memory as MEM_SIZE bytes of which number a is the byte at a, and SP as depth - 1, or 0xFF at depth
0. The sentinel and the extra fields are the spec's decision D36. (R28, R225, 92_eei_decisions.md D36) -/
def Obligations.QueryIsAReadOnlySnapshot : Prop :=
  ∀ s : State, ∃ q, hostApply s .query = (s, .snapshot q) ∧ q.v = s.v ∧ q.i = s.i ∧ q.pc = s.pc ∧ q.depth = s.depth ∧
    q.stack = s.stack ∧ q.dt = s.dt ∧ q.st = s.st ∧ q.w = s.w ∧ q.h = s.h ∧ q.pixels = s.pixels ∧ q.halt = s.halt ∧
    q.memory.length = s.cfg.memSize ∧ (∀ a < s.cfg.memSize, q.memory[a]? = some (byteAt s a)) ∧
    (s.depth = 0 → q.sp = 0xFF) ∧ (s.depth ≠ 0 → q.sp = s.depth - 1)

/-- If the machine is running and the opcode at PC is 1nnn with nnn = PC, a Step changes nothing and its status is Ok: the
run has ended in the sense of the spec's decision D24. (R231, 92_eei_decisions.md D24) -/
def Obligations.SelfJumpChangesNothing : Prop :=
  ∀ s : State, EndedBySelfJump s → step s = .next s ∧ stepStatus s = .ok
end

