-- ==== Sys2Proof/Machine/Assembly.lean ====
section
/-! DEFINITION. The assembler syntax (spec/30_encoding.md R77, R78): mnemonics, operands, numbers, and the one instruction
each line stands for. It is text: no Step depends on it (92_eei_decisions.md D30; log entry 14). -/

namespace Sys2Proof.Machine

/-- The mnemonics of R77. -/
inductive Mnemonic where
  | cls | ret | sys | jp | call | se | sne | ld | add | or | and | xor | sub | shr | subn | shl | rnd | drw | skp | sknp
  deriving DecidableEq, Repr

/-- A mnemonic as it is written. -/
def Mnemonic.text : Mnemonic → List Char
  | .cls => ['C', 'L', 'S']
  | .ret => ['R', 'E', 'T']
  | .sys => ['S', 'Y', 'S']
  | .jp => ['J', 'P']
  | .call => ['C', 'A', 'L', 'L']
  | .se => ['S', 'E']
  | .sne => ['S', 'N', 'E']
  | .ld => ['L', 'D']
  | .add => ['A', 'D', 'D']
  | .or => ['O', 'R']
  | .and => ['A', 'N', 'D']
  | .xor => ['X', 'O', 'R']
  | .sub => ['S', 'U', 'B']
  | .shr => ['S', 'H', 'R']
  | .subn => ['S', 'U', 'B', 'N']
  | .shl => ['S', 'H', 'L']
  | .rnd => ['R', 'N', 'D']
  | .drw => ['D', 'R', 'W']
  | .skp => ['S', 'K', 'P']
  | .sknp => ['S', 'K', 'N', 'P']

/-- All mnemonics. -/
def Mnemonic.all : List Mnemonic :=
  [.cls, .ret, .sys, .jp, .call, .se, .sne, .ld, .add, .or] ++
  [.and, .xor, .sub, .shr, .subn, .shl, .rnd, .drw, .skp, .sknp]

/-- The operands of R77: a register, a number (byte, addr or nibble), I, memory at I, and the named operands. -/
inductive AsmOperand where
  | reg (x : Reg)
  | num (n : Nat)
  | i | memI | dt | st | k | f | b
  deriving DecidableEq, Repr

/-- The address operand of a number, if 12 bits hold it. -/
def asAddr (n : Nat) : Option Addr12 := if n < 4096 then some (BitVec.ofNat 12 n) else none
/-- The byte operand of a number, if 8 bits hold it. -/
def asByte (n : Nat) : Option Byte := if n < 256 then some (BitVec.ofNat 8 n) else none
/-- The nibble operand of a number, if 4 bits hold it. -/
def asNibble (n : Nat) : Option Nibble := if n < 16 then some (BitVec.ofNat 4 n) else none

/-- The forms of LD. -/
def assembleLd : List AsmOperand → Option Instr
  | [.reg x, .num kk] => (asByte kk).map (Instr.ldImm x)
  | [.reg x, .reg y] => some (.ldReg x y)
  | [.i, .num nnn] => (asAddr nnn).map Instr.ldI
  | [.reg x, .dt] => some (.ldVxDt x)
  | [.reg x, .k] => some (.ldVxK x)
  | [.dt, .reg x] => some (.ldDtVx x)
  | [.st, .reg x] => some (.ldStVx x)
  | [.f, .reg x] => some (.ldF x)
  | [.b, .reg x] => some (.ldB x)
  | [.memI, .reg x] => some (.ldMemVx x)
  | [.reg x, .memI] => some (.ldVxMem x)
  | _ => none

/-- The forms of a two-register operation. -/
def assembleXY (make : Reg → Reg → Instr) : List AsmOperand → Option Instr
  | [.reg x, .reg y] => some (make x y)
  | _ => none

/-- The forms of a shift; an omitted Vy assembles as y = 0 (D30). -/
def assembleShift (make : Reg → Reg → Instr) : List AsmOperand → Option Instr
  | [.reg x] => some (make x 0)
  | [.reg x, .reg y] => some (make x y)
  | _ => none

/-- The forms of a skip that compares with a byte or a register. -/
def assembleSkip (imm : Reg → Byte → Instr) (reg : Reg → Reg → Instr) : List AsmOperand → Option Instr
  | [.reg x, .num kk] => (asByte kk).map (imm x)
  | [.reg x, .reg y] => some (reg x y)
  | _ => none

/-- The one instruction a line stands for, if it is a line of R77. -/
def assemble : Mnemonic → List AsmOperand → Option Instr
  | .cls, [] => some .cls
  | .ret, [] => some .ret
  | .sys, [.num nnn] => ((asAddr nnn).map Instr.sys).filter Instr.wellFormed
  | .jp, [.num nnn] => (asAddr nnn).map Instr.jp
  | .jp, [.reg x, .num nnn] => if x = 0 then (asAddr nnn).map Instr.jpV0 else none
  | .call, [.num nnn] => (asAddr nnn).map Instr.call
  | .se, ops => assembleSkip .seImm .seReg ops
  | .sne, ops => assembleSkip .sneImm .sneReg ops
  | .ld, ops => assembleLd ops
  | .add, [.i, .reg x] => some (.addI x)
  | .add, ops => assembleSkip .addImm .addReg ops
  | .or, ops => assembleXY .orReg ops
  | .and, ops => assembleXY .andReg ops
  | .xor, ops => assembleXY .xorReg ops
  | .sub, ops => assembleXY .subReg ops
  | .shr, ops => assembleShift .shr ops
  | .subn, ops => assembleXY .subnReg ops
  | .shl, ops => assembleShift .shl ops
  | .rnd, [.reg x, .num kk] => (asByte kk).map (Instr.rnd x)
  | .drw, [.reg x, .reg y, .num n] => (asNibble n).map (Instr.drw x y)
  | .skp, [.reg x] => some (.skp x)
  | .sknp, [.reg x] => some (.sknp x)
  | _, _ => none

/-- The line of R77 for an instruction: the destination operand first. -/
def asmLine : Instr → Mnemonic × List AsmOperand
  | .cls => (.cls, [])
  | .ret => (.ret, [])
  | .sys nnn => (.sys, [.num nnn.toNat])
  | .jp nnn => (.jp, [.num nnn.toNat])
  | .call nnn => (.call, [.num nnn.toNat])
  | .seImm x kk => (.se, [.reg x, .num kk.toNat])
  | .sneImm x kk => (.sne, [.reg x, .num kk.toNat])
  | .seReg x y => (.se, [.reg x, .reg y])
  | .ldImm x kk => (.ld, [.reg x, .num kk.toNat])
  | .addImm x kk => (.add, [.reg x, .num kk.toNat])
  | .ldReg x y => (.ld, [.reg x, .reg y])
  | .orReg x y => (.or, [.reg x, .reg y])
  | .andReg x y => (.and, [.reg x, .reg y])
  | .xorReg x y => (.xor, [.reg x, .reg y])
  | .addReg x y => (.add, [.reg x, .reg y])
  | .subReg x y => (.sub, [.reg x, .reg y])
  | .shr x y => (.shr, [.reg x, .reg y])
  | .subnReg x y => (.subn, [.reg x, .reg y])
  | .shl x y => (.shl, [.reg x, .reg y])
  | .sneReg x y => (.sne, [.reg x, .reg y])
  | .ldI nnn => (.ld, [.i, .num nnn.toNat])
  | .jpV0 nnn => (.jp, [.reg 0, .num nnn.toNat])
  | .rnd x kk => (.rnd, [.reg x, .num kk.toNat])
  | .drw x y n => (.drw, [.reg x, .reg y, .num n.toNat])
  | .skp x => (.skp, [.reg x])
  | .sknp x => (.sknp, [.reg x])
  | .ldVxDt x => (.ld, [.reg x, .dt])
  | .ldVxK x => (.ld, [.reg x, .k])
  | .ldDtVx x => (.ld, [.dt, .reg x])
  | .ldStVx x => (.ld, [.st, .reg x])
  | .addI x => (.add, [.i, .reg x])
  | .ldF x => (.ld, [.f, .reg x])
  | .ldB x => (.ld, [.b, .reg x])
  | .ldMemVx x => (.ld, [.memI, .reg x])
  | .ldVxMem x => (.ld, [.reg x, .memI])

/-! ### Reading text -/

/-- The value of a digit in a base up to 16. Letters are read in either case: DESIGN CHOICE, safe, log entry 14 (R77 does not
say). -/
def digitValue (base : Nat) (c : Char) : Option Nat :=
  let n := c.toNat
  let v := if 48 ≤ n ∧ n ≤ 57 then n - 48 else if 65 ≤ n ∧ n ≤ 70 then n - 55
    else if 97 ≤ n ∧ n ≤ 102 then n - 87 else 16
  if v < base then some v else none

/-- Digits in a base, most significant first, after the value read so far. -/
def readDigits (base acc : Nat) : List Char → Option Nat
  | [] => some acc
  | c :: cs =>
    match digitValue base c with
    | none => none
    | some v => readDigits base (acc * base + v) cs

/-- A number: hexadecimal after `0x` (with a small x: DESIGN CHOICE, log entry 14) or `#`, else decimal (D30). -/
def readNumber : List Char → Option Nat
  | [] => none
  | ['0', 'x'] => none
  | ['#'] => none
  | '0' :: 'x' :: cs => readDigits 16 0 cs
  | '#' :: cs => readDigits 16 0 cs
  | cs => readDigits 10 0 cs

/-- An operand: V0 to VF, I, [I], DT, ST, K, F, B, or a number. The register's digit is read in either case (`VA` and `Va` are
V10); the letter V and the other names are read in capitals only: DESIGN CHOICE, safe, log entry 14 (R77 writes capitals and
says nothing of the case). -/
def readOperand : List Char → Option AsmOperand
  | ['V', c] => (digitValue 16 c).map fun v => .reg (Fin.ofNat 16 v)
  | ['I'] => some .i
  | ['[', 'I', ']'] => some .memI
  | ['D', 'T'] => some .dt
  | ['S', 'T'] => some .st
  | ['K'] => some .k
  | ['F'] => some .f
  | ['B'] => some .b
  | cs => (readNumber cs).map .num

/-- A mnemonic, in capitals only: DESIGN CHOICE, safe, log entry 14. -/
def readMnemonic (cs : List Char) : Option Mnemonic := Mnemonic.all.find? fun m => m.text == cs

/-- The words of a line: blanks and commas separate them. -/
def splitWords (word : List Char) : List Char → List (List Char)
  | [] => if word = [] then [] else [word.reverse]
  | c :: cs =>
    if c = ' ' ∨ c = ',' then (if word = [] then splitWords [] cs else word.reverse :: splitWords [] cs)
    else splitWords (c :: word) cs

/-- The one instruction a line of text stands for, if it is a line of R77 (R78). -/
def assembleText (line : List Char) : Option Instr :=
  match splitWords [] line with
  | [] => none
  | m :: ops =>
    match readMnemonic m, ops.mapM readOperand with
    | some mn, some os => assemble mn os
    | _, _ => none

end Sys2Proof.Machine
end

