-- ==== Sys2Proof/Laws/Assembly.lean ====
section
/-! SUPPORT. Assembling the line of a well-formed instruction gives that instruction (spec/30_encoding.md R77, R78). -/

namespace Sys2Proof.Machine

@[simp] theorem asAddr_toNat (n : Addr12) : asAddr n.toNat = some n := by
  simp [asAddr, n.isLt]

@[simp] theorem asByte_toNat (b : Byte) : asByte b.toNat = some b := by
  simp [asByte, b.isLt]

@[simp] theorem asNibble_toNat (n : Nibble) : asNibble n.toNat = some n := by
  simp [asNibble, n.isLt]

/-- Every well-formed instruction has a line, and that line stands for it alone. -/
theorem assemble_line (i : Instr) (h : i.WellFormed) : assemble (asmLine i).1 (asmLine i).2 = some i := by
  cases i <;> simp_all [asmLine, assemble, assembleLd, assembleXY, assembleShift, assembleSkip]

end Sys2Proof.Machine
end

