-- ==== Sys2Proof/Laws/Encoding.lean ====
section
/-! SUPPORT. The fields of a word and the words of the formats as numbers (spec/30_encoding.md R71, R72): a proof about the
encoding is then arithmetic. -/

namespace Sys2Proof

/-! ### A field as a quotient and remainder -/

theorem fieldC_toNat (op : Word) : (fieldC op).toNat = op.toNat / 4096 := by
  have := op.isLt
  simp [fieldC, BitVec.extractLsb'_toNat, Nat.shiftRight_eq_div_pow]; omega

theorem fieldX_val (op : Word) : (fieldX op).val = op.toNat / 256 % 16 := by
  simp [fieldX, Nat.shiftRight_eq_div_pow]

theorem fieldY_val (op : Word) : (fieldY op).val = op.toNat / 16 % 16 := by
  simp [fieldY, Nat.shiftRight_eq_div_pow]

theorem fieldN_toNat (op : Word) : (fieldN op).toNat = op.toNat % 16 := by
  simp [fieldN, BitVec.extractLsb'_toNat]

theorem fieldKK_toNat (op : Word) : (fieldKK op).toNat = op.toNat % 256 := by
  simp [fieldKK, BitVec.extractLsb'_toNat]

theorem fieldNNN_toNat (op : Word) : (fieldNNN op).toNat = op.toNat % 4096 := by
  simp [fieldNNN, BitVec.extractLsb'_toNat]

/-! ### A word as a weighted sum -/

/-- Two fields side by side, as numbers. -/
theorem append_toNat {m n : Nat} (a : BitVec m) (b : BitVec n) :
    (a ++ b : BitVec (m + n)).toNat = a.toNat * 2 ^ n + b.toNat := by
  rw [BitVec.toNat_append, ← Nat.shiftLeft_add_eq_or_of_lt b.isLt, Nat.shiftLeft_eq]

@[simp] theorem regField_toNat (x : Reg) : (regField x).toNat = x.val := rfl

theorem packA_toNat (c : Nibble) (nnn : Addr12) : (packA c nnn).toNat = c.toNat * 4096 + nnn.toNat :=
  append_toNat c nnn

theorem packXK_toNat (c : Nibble) (x : Reg) (kk : Byte) :
    (packXK c x kk).toNat = c.toNat * 4096 + x.val * 256 + kk.toNat := by
  have h : (packXK c x kk).toNat = (c ++ regField x : BitVec (4 + 4)).toNat * 2 ^ 8 + kk.toNat :=
    append_toNat (c ++ regField x) kk
  rw [h, append_toNat, regField_toNat]; ring

theorem packXYN_toNat (c : Nibble) (x y : Reg) (n : Nibble) :
    (packXYN c x y n).toNat = c.toNat * 4096 + x.val * 256 + y.val * 16 + n.toNat := by
  have h : (packXYN c x y n).toNat = (c ++ regField x ++ regField y : BitVec (4 + 4 + 4)).toNat * 2 ^ 4 + n.toNat :=
    append_toNat (c ++ regField x ++ regField y) n
  rw [h, append_toNat, append_toNat, regField_toNat, regField_toNat]; ring

/-! ### The fields of a packed word -/

@[simp] theorem fieldC_packA (c : Nibble) (nnn : Addr12) : fieldC (packA c nnn) = c :=
  BitVec.eq_of_toNat_eq (by rw [fieldC_toNat, packA_toNat]; have := nnn.isLt; omega)

@[simp] theorem fieldNNN_packA (c : Nibble) (nnn : Addr12) : fieldNNN (packA c nnn) = nnn :=
  BitVec.eq_of_toNat_eq (by rw [fieldNNN_toNat, packA_toNat]; have := nnn.isLt; omega)

@[simp] theorem fieldC_packXK (c : Nibble) (x : Reg) (kk : Byte) : fieldC (packXK c x kk) = c :=
  BitVec.eq_of_toNat_eq (by rw [fieldC_toNat, packXK_toNat]; have := kk.isLt; have := x.isLt; omega)

@[simp] theorem fieldX_packXK (c : Nibble) (x : Reg) (kk : Byte) : fieldX (packXK c x kk) = x :=
  Fin.ext (by rw [fieldX_val, packXK_toNat]; have := kk.isLt; have := x.isLt; omega)

@[simp] theorem fieldKK_packXK (c : Nibble) (x : Reg) (kk : Byte) : fieldKK (packXK c x kk) = kk :=
  BitVec.eq_of_toNat_eq (by rw [fieldKK_toNat, packXK_toNat]; have := kk.isLt; omega)

@[simp] theorem fieldC_packXYN (c : Nibble) (x y : Reg) (n : Nibble) : fieldC (packXYN c x y n) = c :=
  BitVec.eq_of_toNat_eq (by
    rw [fieldC_toNat, packXYN_toNat]; have := x.isLt; have := y.isLt; have := n.isLt; omega)

@[simp] theorem fieldX_packXYN (c : Nibble) (x y : Reg) (n : Nibble) : fieldX (packXYN c x y n) = x :=
  Fin.ext (by rw [fieldX_val, packXYN_toNat]; have := x.isLt; have := y.isLt; have := n.isLt; omega)

@[simp] theorem fieldY_packXYN (c : Nibble) (x y : Reg) (n : Nibble) : fieldY (packXYN c x y n) = y :=
  Fin.ext (by rw [fieldY_val, packXYN_toNat]; have := x.isLt; have := y.isLt; have := n.isLt; omega)

@[simp] theorem fieldN_packXYN (c : Nibble) (x y : Reg) (n : Nibble) : fieldN (packXYN c x y n) = n :=
  BitVec.eq_of_toNat_eq (by rw [fieldN_toNat, packXYN_toNat]; have := n.isLt; omega)

/-! ### A word is made of its fields -/

theorem packA_fields (op : Word) : packA (fieldC op) (fieldNNN op) = op :=
  BitVec.eq_of_toNat_eq (by rw [packA_toNat, fieldC_toNat, fieldNNN_toNat]; omega)

theorem packXK_fields (op : Word) : packXK (fieldC op) (fieldX op) (fieldKK op) = op :=
  BitVec.eq_of_toNat_eq (by rw [packXK_toNat, fieldC_toNat, fieldX_val, fieldKK_toNat]; omega)

theorem packXYN_fields (op : Word) : packXYN (fieldC op) (fieldX op) (fieldY op) (fieldN op) = op :=
  BitVec.eq_of_toNat_eq (by
    rw [packXYN_toNat, fieldC_toNat, fieldX_val, fieldY_val, fieldN_toNat]; omega)

/-! ### Case analysis -/

/-- The sixteen values of a nibble: the classes of R74, or the sub-functions of class 8. -/
theorem nibble_cases (c : Nibble) :
    c = 0x0#4 ∨ c = 0x1#4 ∨ c = 0x2#4 ∨ c = 0x3#4 ∨ c = 0x4#4 ∨ c = 0x5#4 ∨ c = 0x6#4 ∨ c = 0x7#4 ∨ c =
    0x8#4 ∨ c = 0x9#4 ∨ c = 0xA#4 ∨ c = 0xB#4 ∨ c = 0xC#4 ∨ c = 0xD#4 ∨ c = 0xE#4 ∨ c = 0xF#4 := by
  have h := c.isLt
  simp only [BitVec.toNat_eq, BitVec.toNat_ofNat]
  omega

/-! ### What each class decodes to (R74) -/

theorem decode_class0 (op : Word) (h : fieldC op = 0x0#4) :
    decode op = .ok (decodeClass0 op) := by
  simp [decode, h]

theorem decode_class1 (op : Word) (h : fieldC op = 0x1#4) :
    decode op = .ok (.jp (fieldNNN op)) := by
  simp [decode, h]

theorem decode_class2 (op : Word) (h : fieldC op = 0x2#4) :
    decode op = .ok (.call (fieldNNN op)) := by
  simp [decode, h]

theorem decode_class3 (op : Word) (h : fieldC op = 0x3#4) :
    decode op = .ok (.seImm (fieldX op) (fieldKK op)) := by
  simp [decode, h]

theorem decode_class4 (op : Word) (h : fieldC op = 0x4#4) :
    decode op = .ok (.sneImm (fieldX op) (fieldKK op)) := by
  simp [decode, h]

theorem decode_class5 (op : Word) (h : fieldC op = 0x5#4) :
    decode op = if fieldN op = 0x0#4 then .ok (.seReg (fieldX op) (fieldY op)) else .error (.unknownOpcode op) := by
  simp [decode, h]

theorem decode_class6 (op : Word) (h : fieldC op = 0x6#4) :
    decode op = .ok (.ldImm (fieldX op) (fieldKK op)) := by
  simp [decode, h]

theorem decode_class7 (op : Word) (h : fieldC op = 0x7#4) :
    decode op = .ok (.addImm (fieldX op) (fieldKK op)) := by
  simp [decode, h]

theorem decode_class8 (op : Word) (h : fieldC op = 0x8#4) :
    decode op = decodeClass8 op := by
  simp [decode, h]

theorem decode_class9 (op : Word) (h : fieldC op = 0x9#4) :
    decode op = if fieldN op = 0x0#4 then .ok (.sneReg (fieldX op) (fieldY op)) else .error (.unknownOpcode op) := by
  simp [decode, h]

theorem decode_classA (op : Word) (h : fieldC op = 0xA#4) :
    decode op = .ok (.ldI (fieldNNN op)) := by
  simp [decode, h]

theorem decode_classB (op : Word) (h : fieldC op = 0xB#4) :
    decode op = .ok (.jpV0 (fieldNNN op)) := by
  simp [decode, h]

theorem decode_classC (op : Word) (h : fieldC op = 0xC#4) :
    decode op = .ok (.rnd (fieldX op) (fieldKK op)) := by
  simp [decode, h]

theorem decode_classD (op : Word) (h : fieldC op = 0xD#4) :
    decode op = .ok (.drw (fieldX op) (fieldY op) (fieldN op)) := by
  simp [decode, h]

theorem decode_classE (op : Word) (h : fieldC op = 0xE#4) :
    decode op = decodeClassE op := by
  simp [decode, h]

theorem decode_classF (op : Word) (h : fieldC op = 0xF#4) :
    decode op = decodeClassF op := by
  simp [decode, h]

end Sys2Proof
end

