-- ==== Sys2Proof/Laws/State.lean ====
section
/-! SUPPORT. One lemma per field per named update of the state, each true by rfl, so that no proof unfolds an update. -/

namespace Sys2Proof.Machine

/-! ### Writing a register -/

@[simp] theorem setV_cfg (s : State) (x : Reg) (b : Byte) : (setV s x b).cfg = s.cfg := rfl
@[simp] theorem setV_v (s : State) (x : Reg) (b : Byte) : (setV s x b).v = s.v.set x b := rfl
@[simp] theorem setV_i (s : State) (x : Reg) (b : Byte) : (setV s x b).i = s.i := rfl
@[simp] theorem setV_pc (s : State) (x : Reg) (b : Byte) : (setV s x b).pc = s.pc := rfl
@[simp] theorem setV_stack (s : State) (x : Reg) (b : Byte) : (setV s x b).stack = s.stack := rfl
@[simp] theorem setV_depth (s : State) (x : Reg) (b : Byte) : (setV s x b).depth = s.depth := rfl
@[simp] theorem setV_dt (s : State) (x : Reg) (b : Byte) : (setV s x b).dt = s.dt := rfl
@[simp] theorem setV_st (s : State) (x : Reg) (b : Byte) : (setV s x b).st = s.st := rfl
@[simp] theorem setV_w (s : State) (x : Reg) (b : Byte) : (setV s x b).w = s.w := rfl
@[simp] theorem setV_h (s : State) (x : Reg) (b : Byte) : (setV s x b).h = s.h := rfl
@[simp] theorem setV_pixels (s : State) (x : Reg) (b : Byte) : (setV s x b).pixels = s.pixels := rfl
@[simp] theorem setV_keys (s : State) (x : Reg) (b : Byte) : (setV s x b).keys = s.keys := rfl
@[simp] theorem setV_mem (s : State) (x : Reg) (b : Byte) : (setV s x b).mem = s.mem := rfl
@[simp] theorem setV_halt (s : State) (x : Reg) (b : Byte) : (setV s x b).halt = s.halt := rfl
@[simp] theorem setV_rand (s : State) (x : Reg) (b : Byte) : (setV s x b).rand = s.rand := rfl

/-! ### Writing a register and then VF -/

@[simp] theorem setWithFlag_cfg (s : State) (x : Reg) (r f : Byte) : (setWithFlag s x r f).cfg = s.cfg := rfl
@[simp] theorem setWithFlag_v (s : State) (x : Reg) (r f : Byte) : (setWithFlag s x r f).v = (s.v.set x r).set 15 f := rfl
@[simp] theorem setWithFlag_i (s : State) (x : Reg) (r f : Byte) : (setWithFlag s x r f).i = s.i := rfl
@[simp] theorem setWithFlag_pc (s : State) (x : Reg) (r f : Byte) : (setWithFlag s x r f).pc = s.pc := rfl
@[simp] theorem setWithFlag_stack (s : State) (x : Reg) (r f : Byte) : (setWithFlag s x r f).stack = s.stack := rfl
@[simp] theorem setWithFlag_depth (s : State) (x : Reg) (r f : Byte) : (setWithFlag s x r f).depth = s.depth := rfl
@[simp] theorem setWithFlag_dt (s : State) (x : Reg) (r f : Byte) : (setWithFlag s x r f).dt = s.dt := rfl
@[simp] theorem setWithFlag_st (s : State) (x : Reg) (r f : Byte) : (setWithFlag s x r f).st = s.st := rfl
@[simp] theorem setWithFlag_w (s : State) (x : Reg) (r f : Byte) : (setWithFlag s x r f).w = s.w := rfl
@[simp] theorem setWithFlag_h (s : State) (x : Reg) (r f : Byte) : (setWithFlag s x r f).h = s.h := rfl
@[simp] theorem setWithFlag_pixels (s : State) (x : Reg) (r f : Byte) : (setWithFlag s x r f).pixels = s.pixels := rfl
@[simp] theorem setWithFlag_keys (s : State) (x : Reg) (r f : Byte) : (setWithFlag s x r f).keys = s.keys := rfl
@[simp] theorem setWithFlag_mem (s : State) (x : Reg) (r f : Byte) : (setWithFlag s x r f).mem = s.mem := rfl
@[simp] theorem setWithFlag_halt (s : State) (x : Reg) (r f : Byte) : (setWithFlag s x r f).halt = s.halt := rfl
@[simp] theorem setWithFlag_rand (s : State) (x : Reg) (r f : Byte) : (setWithFlag s x r f).rand = s.rand := rfl

/-! ### Storing a byte -/

@[simp] theorem pokeByte_cfg (s : State) (a : Nat) (b : Byte) : (pokeByte s a b).cfg = s.cfg := rfl
@[simp] theorem pokeByte_v (s : State) (a : Nat) (b : Byte) : (pokeByte s a b).v = s.v := rfl
@[simp] theorem pokeByte_i (s : State) (a : Nat) (b : Byte) : (pokeByte s a b).i = s.i := rfl
@[simp] theorem pokeByte_pc (s : State) (a : Nat) (b : Byte) : (pokeByte s a b).pc = s.pc := rfl
@[simp] theorem pokeByte_stack (s : State) (a : Nat) (b : Byte) : (pokeByte s a b).stack = s.stack := rfl
@[simp] theorem pokeByte_depth (s : State) (a : Nat) (b : Byte) : (pokeByte s a b).depth = s.depth := rfl
@[simp] theorem pokeByte_dt (s : State) (a : Nat) (b : Byte) : (pokeByte s a b).dt = s.dt := rfl
@[simp] theorem pokeByte_st (s : State) (a : Nat) (b : Byte) : (pokeByte s a b).st = s.st := rfl
@[simp] theorem pokeByte_w (s : State) (a : Nat) (b : Byte) : (pokeByte s a b).w = s.w := rfl
@[simp] theorem pokeByte_h (s : State) (a : Nat) (b : Byte) : (pokeByte s a b).h = s.h := rfl
@[simp] theorem pokeByte_pixels (s : State) (a : Nat) (b : Byte) : (pokeByte s a b).pixels = s.pixels := rfl
@[simp] theorem pokeByte_keys (s : State) (a : Nat) (b : Byte) : (pokeByte s a b).keys = s.keys := rfl
@[simp] theorem pokeByte_mem (s : State) (a : Nat) (b : Byte) : (pokeByte s a b).mem = Memory.put s.cfg a b s.mem := rfl
@[simp] theorem pokeByte_halt (s : State) (a : Nat) (b : Byte) : (pokeByte s a b).halt = s.halt := rfl
@[simp] theorem pokeByte_rand (s : State) (a : Nat) (b : Byte) : (pokeByte s a b).rand = s.rand := rfl

/-! ### The fatal halt -/

@[simp] theorem haltedWith_cfg (s : State) (c : HaltCause) (op : Option Word) (a : Option Nat) : (haltedWith s c op a).cfg = s.cfg := rfl
@[simp] theorem haltedWith_v (s : State) (c : HaltCause) (op : Option Word) (a : Option Nat) : (haltedWith s c op a).v = s.v := rfl
@[simp] theorem haltedWith_i (s : State) (c : HaltCause) (op : Option Word) (a : Option Nat) : (haltedWith s c op a).i = s.i := rfl
@[simp] theorem haltedWith_pc (s : State) (c : HaltCause) (op : Option Word) (a : Option Nat) : (haltedWith s c op a).pc = s.pc := rfl
@[simp] theorem haltedWith_stack (s : State) (c : HaltCause) (op : Option Word) (a : Option Nat) : (haltedWith s c op a).stack = s.stack := rfl
@[simp] theorem haltedWith_depth (s : State) (c : HaltCause) (op : Option Word) (a : Option Nat) : (haltedWith s c op a).depth = s.depth := rfl
@[simp] theorem haltedWith_dt (s : State) (c : HaltCause) (op : Option Word) (a : Option Nat) : (haltedWith s c op a).dt = s.dt := rfl
@[simp] theorem haltedWith_st (s : State) (c : HaltCause) (op : Option Word) (a : Option Nat) : (haltedWith s c op a).st = s.st := rfl
@[simp] theorem haltedWith_w (s : State) (c : HaltCause) (op : Option Word) (a : Option Nat) : (haltedWith s c op a).w = s.w := rfl
@[simp] theorem haltedWith_h (s : State) (c : HaltCause) (op : Option Word) (a : Option Nat) : (haltedWith s c op a).h = s.h := rfl
@[simp] theorem haltedWith_pixels (s : State) (c : HaltCause) (op : Option Word) (a : Option Nat) : (haltedWith s c op a).pixels = s.pixels := rfl
@[simp] theorem haltedWith_keys (s : State) (c : HaltCause) (op : Option Word) (a : Option Nat) : (haltedWith s c op a).keys = s.keys := rfl
@[simp] theorem haltedWith_mem (s : State) (c : HaltCause) (op : Option Word) (a : Option Nat) : (haltedWith s c op a).mem = s.mem := rfl
@[simp] theorem haltedWith_halt (s : State) (c : HaltCause) (op : Option Word) (a : Option Nat) : (haltedWith s c op a).halt = some { cause := c, pc := s.pc, opcode := op, addr := a } := rfl
@[simp] theorem haltedWith_rand (s : State) (c : HaltCause) (op : Option Word) (a : Option Nat) : (haltedWith s c op a).rand = s.rand := rfl

/-! ### TickTimers -/

@[simp] theorem tickTimers_cfg (s : State) : (tickTimers s).cfg = s.cfg := rfl
@[simp] theorem tickTimers_v (s : State) : (tickTimers s).v = s.v := rfl
@[simp] theorem tickTimers_i (s : State) : (tickTimers s).i = s.i := rfl
@[simp] theorem tickTimers_pc (s : State) : (tickTimers s).pc = s.pc := rfl
@[simp] theorem tickTimers_stack (s : State) : (tickTimers s).stack = s.stack := rfl
@[simp] theorem tickTimers_depth (s : State) : (tickTimers s).depth = s.depth := rfl
@[simp] theorem tickTimers_dt (s : State) : (tickTimers s).dt = if s.dt = 0 then s.dt else s.dt - 1 := rfl
@[simp] theorem tickTimers_st (s : State) : (tickTimers s).st = if s.st = 0 then s.st else s.st - 1 := rfl
@[simp] theorem tickTimers_w (s : State) : (tickTimers s).w = s.w := rfl
@[simp] theorem tickTimers_h (s : State) : (tickTimers s).h = s.h := rfl
@[simp] theorem tickTimers_pixels (s : State) : (tickTimers s).pixels = s.pixels := rfl
@[simp] theorem tickTimers_keys (s : State) : (tickTimers s).keys = s.keys := rfl
@[simp] theorem tickTimers_mem (s : State) : (tickTimers s).mem = s.mem := rfl
@[simp] theorem tickTimers_halt (s : State) : (tickTimers s).halt = s.halt := rfl
@[simp] theorem tickTimers_rand (s : State) : (tickTimers s).rand = s.rand := rfl

/-! ### The outcomes of the shared operations -/

@[simp] theorem advance_eq (s : State) : advance s = .next { s with pc := s.pc + 2 } := rfl
@[simp] theorem skipIf_eq (b : Bool) (s : State) :
    skipIf b s = .next { s with pc := if b then s.pc + 4 else s.pc + 2 } := rfl
@[simp] theorem jumpTo_eq (a : Word) (s : State) : jumpTo a s = .next { s with pc := a } := rfl
@[simp] theorem hold_eq (s : State) : hold s = .next s := rfl
@[simp] theorem raise_eq (c : HaltCause) (op : Option Word) (a : Option Nat) (s : State) :
    raise c op a s = .next (haltedWith s c op a) := rfl
@[simp] theorem withAccess_ok {α : Type} (ins : Instr) (s : State) (x : α) (go : α → Result) :
    withAccess ins s (.ok x) go = go x := rfl
@[simp] theorem withAccess_error {α : Type} (ins : Instr) (s : State) (a : Nat) (go : α → Result) :
    withAccess ins s (.error a) go = .next (haltedWith s .addressFault (some (encode ins)) (some a)) := rfl

/-! ### Registers -/

/-- A register read after one register write. -/
theorem getElem_set_reg (v : Vector Byte 16) (x k : Reg) (b : Byte) :
    (v.set x b)[k] = if k = x then b else v[k] := by
  simp only [Fin.getElem_fin, Vector.getElem_set, Fin.ext_iff, eq_comm]

/-- A register read after a result and then VF are written: the flag wins. -/
theorem setWithFlag_getElem (s : State) (x k : Reg) (r f : Byte) :
    (setWithFlag s x r f).v[k] = if k = 15 then f else if k = x then r else s.v[k] := by
  rw [setWithFlag_v]
  exact (getElem_set_reg _ 15 k f).trans (by rw [getElem_set_reg])

end Sys2Proof.Machine
end

