-- ==== Sys2Proof/Laws/Memory.lean ====
section
/-! SUPPORT. The laws of memory: a read after a write, the canonical form is kept, and what reading and writing several
bytes can do. -/

namespace Sys2Proof.Machine

/-! ### One byte in the list -/

/-- A lookup below every listed address finds nothing. -/
theorem lookup_none_of_lt {m : Memory} {a : Nat} (h : ∀ p ∈ m, a < p.1) : Memory.lookup m a = none := by
  induction m with
  | nil => rfl
  | cons p rest ih =>
    have hp := h p (by simp)
    rw [Memory.lookup, if_neg (by omega), ih fun q hq => h q (by simp [hq])]

/-- Reading where a cell was just put in front of cells with higher addresses. -/
theorem read_consCell {c : Config} {rest : Memory} {a : Nat} (v : Byte) (b : Nat) (h : ∀ p ∈ rest, a < p.1) :
    Memory.read c (Memory.consCell c a v rest) b = if b = a then v else Memory.read c rest b := by
  unfold Memory.consCell
  by_cases hv : v = background c a
  · rw [if_pos hv]
    by_cases hb : b = a
    · subst hb; rw [if_pos rfl, Memory.read, lookup_none_of_lt h]; exact hv.symm
    · rw [if_neg hb]
  · rw [if_neg hv]
    by_cases hb : b = a
    · subst hb; simp [Memory.read, Memory.lookup]
    · rw [if_neg hb, Memory.read, Memory.lookup, if_neg (Ne.symm hb)]; rfl

/-- Reading behind the first cell. -/
theorem read_cons {c : Config} (p : Host.Cell) (m : Memory) (b : Nat) :
    Memory.read c (p :: m) b = if b = p.1 then p.2 else Memory.read c m b := by
  obtain ⟨a, v⟩ := p
  by_cases hb : b = a
  · subst hb; simp [Memory.read, Memory.lookup]
  · rw [if_neg hb, Memory.read, Memory.lookup, if_neg (Ne.symm hb)]; rfl

/-- A read after a write gives the value written there, and elsewhere what was there. -/
theorem read_put {c : Config} {m : Memory} (hs : m.Pairwise fun p q => p.1 < q.1) (a : Nat) (v : Byte) (b : Nat) :
    Memory.read c (Memory.put c a v m) b = if b = a then v else Memory.read c m b := by
  induction m with
  | nil => exact read_consCell v b (by simp)
  | cons p rest ih =>
    obtain ⟨d, u⟩ := p
    obtain ⟨hp, hr⟩ := List.pairwise_cons.1 hs
    rw [Memory.put]
    by_cases h1 : a < d
    · rw [if_pos h1]
      refine read_consCell v b fun q hq => ?_
      rcases List.mem_cons.1 hq with rfl | hq
      · exact h1
      · exact lt_trans h1 (hp q hq)
    · rw [if_neg h1]
      by_cases h2 : a = d
      · subst h2
        rw [if_pos rfl, read_consCell v b hp, read_cons]
        by_cases hb : b = a <;> simp [hb]
      · rw [if_neg h2, read_cons, read_cons, ih hr]
        by_cases hb : b = d
        · have : b ≠ a := by omega
          simp [hb, Ne.symm h2]
        · simp [hb]

/-- Every cell after a write is the written one or an old one. -/
theorem mem_put {c : Config} {m : Memory} {a : Nat} {v : Byte} {p : Host.Cell} (h : p ∈ Memory.put c a v m) :
    (p = (a, v) ∧ v ≠ background c a) ∨ p ∈ m := by
  have cons : ∀ rest : Memory, p ∈ Memory.consCell c a v rest → (p = (a, v) ∧ v ≠ background c a) ∨ p ∈ rest := by
    intro rest hp
    unfold Memory.consCell at hp
    split at hp
    · exact .inr hp
    · rename_i hv
      exact (List.mem_cons.1 hp).imp (fun e => ⟨e, hv⟩) id
  induction m with
  | nil => exact cons [] h
  | cons q rest ih =>
    obtain ⟨d, u⟩ := q
    rw [Memory.put] at h
    split at h
    · exact cons _ h
    · split at h
      · exact (cons rest h).imp id (List.mem_cons_of_mem _)
      · rcases List.mem_cons.1 h with e | h
        · exact .inr (by simp [e])
        · exact (ih h).imp id (List.mem_cons_of_mem _)

/-- A cell put in front of higher addresses keeps them rising. -/
theorem pairwise_consCell {c : Config} {rest : Memory} {a : Nat} (v : Byte)
    (hs : rest.Pairwise fun p q => p.1 < q.1) (h : ∀ p ∈ rest, a < p.1) :
    (Memory.consCell c a v rest).Pairwise fun p q => p.1 < q.1 := by
  unfold Memory.consCell
  split
  · exact hs
  · exact List.pairwise_cons.2 ⟨fun p hp => h p hp, hs⟩

/-- A write keeps the addresses strictly rising. -/
theorem pairwise_put {c : Config} {m : Memory} (hs : m.Pairwise fun p q => p.1 < q.1) (a : Nat) (v : Byte) :
    (Memory.put c a v m).Pairwise fun p q => p.1 < q.1 := by
  induction m with
  | nil => exact pairwise_consCell v hs (by simp)
  | cons q rest ih =>
    obtain ⟨d, u⟩ := q
    obtain ⟨hq, hr⟩ := List.pairwise_cons.1 hs
    rw [Memory.put]
    by_cases h1 : a < d
    · rw [if_pos h1]
      refine pairwise_consCell v hs fun p hp => ?_
      rcases List.mem_cons.1 hp with rfl | hp
      · exact h1
      · exact lt_trans h1 (hq p hp)
    · rw [if_neg h1]
      by_cases h2 : a = d
      · rw [if_pos h2]; subst h2; exact pairwise_consCell v hr hq
      · rw [if_neg h2]
        refine List.pairwise_cons.2 ⟨fun p hp => ?_, ih hr⟩
        rcases mem_put hp with ⟨rfl, -⟩ | hp
        · show d < a; omega
        · exact hq p hp

/-- A write inside memory keeps the canonical form. -/
theorem put_wf {c : Config} {m : Memory} (hm : Memory.wf c m) {a : Nat} (ha : a < c.memSize) (v : Byte) :
    Memory.wf c (Memory.put c a v m) := by
  refine ⟨pairwise_put hm.1 a v, fun p hp => ?_⟩
  rcases mem_put hp with ⟨rfl, hv⟩ | hp
  · exact ⟨ha, hv⟩
  · exact hm.2 p hp

/-- Equal memories are equal lists: two canonical memories that read alike everywhere are the same. -/
theorem wf_ext {c : Config} {m m' : Memory} (hm : Memory.wf c m) (hm' : Memory.wf c m')
    (h : ∀ a, Memory.read c m a = Memory.read c m' a) : m = m' := by
  induction m generalizing m' with
  | nil =>
    cases m' with
    | nil => rfl
    | cons p rest =>
      have := h p.1
      rw [read_cons, if_pos rfl] at this
      exact absurd this.symm (hm'.2 p (by simp)).2
  | cons p rest ih =>
    obtain ⟨hp, hr⟩ := List.pairwise_cons.1 hm.1
    cases m' with
    | nil =>
      have := h p.1
      rw [read_cons, if_pos rfl] at this
      exact absurd this (hm.2 p (by simp)).2
    | cons q rest' =>
      obtain ⟨hq, hr'⟩ := List.pairwise_cons.1 hm'.1
      have low : ∀ {r : Memory} {a : Nat}, (∀ x ∈ r, a < x.1) → Memory.read c r a = background c a := by
        intro r a hlt; rw [Memory.read, lookup_none_of_lt hlt]; rfl
      have key : p.1 = q.1 := by
        rcases lt_trichotomy p.1 q.1 with hlt | he | hlt
        · have := h p.1
          rw [read_cons, if_pos rfl, read_cons, if_neg (by omega),
            low fun x hx => lt_trans hlt (hq x hx)] at this
          exact absurd this (hm.2 p (by simp)).2
        · exact he
        · have := h q.1
          rw [read_cons (p := q), if_pos rfl, read_cons, if_neg (by omega),
            low fun x hx => lt_trans hlt (hp x hx)] at this
          exact absurd this.symm (hm'.2 q (by simp)).2
      have val : p.2 = q.2 := by
        have := h p.1
        rwa [read_cons, if_pos rfl, read_cons, if_pos key] at this
      have hpq : p = q := Prod.ext key val
      subst hpq
      congr 1
      refine ih ⟨hr, fun x hx => hm.2 x (by simp [hx])⟩ ⟨hr', fun x hx => hm'.2 x (by simp [hx])⟩ fun a => ?_
      have := h a
      rw [read_cons, read_cons] at this
      by_cases ha : a = p.1
      · subst ha; rw [low hp, low hq]
      · simpa [ha] using this

/-! ### One byte of a state -/

@[simp] theorem memRead_ok_iff (s : State) (a : Nat) (b : Byte) :
    memRead s a = .ok b ↔ a < s.cfg.memSize ∧ b = byteAt s a := by
  unfold memRead; split <;> simp <;> grind

@[simp] theorem memRead_error_iff (s : State) (a e : Nat) :
    memRead s a = .error e ↔ s.cfg.memSize ≤ a ∧ e = a := by
  unfold memRead; split <;> simp <;> grind

theorem memWrite_ok_iff (s t : State) (a : Nat) (v : Byte) :
    memWrite s a v = .ok t ↔ a < s.cfg.memSize ∧ inFont s.cfg a = false ∧ t = pokeByte s a v := by
  unfold memWrite
  by_cases h1 : s.cfg.memSize ≤ a
  · simp [h1]; try omega
  · by_cases h2 : inFont s.cfg a = true
    · simp [h1, h2, eq_comm]
    · simp [h1, h2, eq_comm]; try omega

theorem memWrite_error_iff (s : State) (a e : Nat) (v : Byte) :
    memWrite s a v = .error e ↔ (s.cfg.memSize ≤ a ∨ inFont s.cfg a = true) ∧ e = a := by
  unfold memWrite
  by_cases h1 : s.cfg.memSize ≤ a
  · simp [h1]; try omega
  · by_cases h2 : inFont s.cfg a = true
    · simp [h1, h2, eq_comm]
    · simp [h1, h2, eq_comm]; try omega

/-- A byte read after one is stored. -/
theorem byteAt_pokeByte {s : State} (hs : Memory.wf s.cfg s.mem) (a : Nat) (v : Byte) (b : Nat) :
    byteAt (pokeByte s a v) b = if b = a then v else byteAt s b := read_put hs.1 a v b

/-! ### Several bytes -/

/-- Storing bytes without a check changes memory alone. -/
theorem pokeBytes_frame (s : State) (a : Nat) (bs : List Byte) :
    pokeBytes s a bs = { s with mem := (pokeBytes s a bs).mem } := by
  induction bs generalizing s a with
  | nil => rfl
  | cons b bs ih => rw [pokeBytes, ih]; rfl

@[simp] theorem pokeBytes_cfg (s : State) (a : Nat) (bs : List Byte) : (pokeBytes s a bs).cfg = s.cfg := by
  rw [pokeBytes_frame]

/-- Storing bytes inside memory keeps the canonical form. -/
theorem pokeBytes_wf {s : State} (hs : Memory.wf s.cfg s.mem) {a : Nat} {bs : List Byte}
    (h : a + bs.length ≤ s.cfg.memSize) : Memory.wf s.cfg (pokeBytes s a bs).mem := by
  induction bs generalizing s a with
  | nil => exact hs
  | cons b bs ih =>
    simp only [List.length_cons] at h
    exact ih (s := pokeByte s a b) (put_wf hs (by omega) b) (by simp; omega)

/-- A byte read after several are stored. -/
theorem byteAt_pokeBytes {s : State} (hs : Memory.wf s.cfg s.mem) {a : Nat} {bs : List Byte}
    (h : a + bs.length ≤ s.cfg.memSize) (b : Nat) :
    byteAt (pokeBytes s a bs) b = if a ≤ b ∧ b < a + bs.length then bs.getD (b - a) 0 else byteAt s b := by
  induction bs generalizing s a with
  | nil => rw [if_neg (by simp)]; rfl
  | cons v bs ih =>
    simp only [List.length_cons] at h ⊢
    rw [pokeBytes, ih (s := pokeByte s a v) (put_wf hs (by omega) v) (by simp; omega), byteAt_pokeByte hs]
    by_cases hb : b = a
    · subst hb; simp
    · by_cases hlt : a + 1 ≤ b ∧ b < a + 1 + bs.length
      · rw [if_pos hlt, if_pos (by omega), show b - a = (b - (a + 1)) + 1 by omega]; simp
      · rw [if_neg hlt, if_neg hb, if_neg (by omega)]

/-- A byte read from the state a storing instruction leaves: PC set, and memory as `pokeBytes` leaves it. -/
theorem byteAt_stored {s : State} (hs : Memory.wf s.cfg s.mem) {a : Nat} {bs : List Byte}
    (h : a + bs.length ≤ s.cfg.memSize) (p : Word) (b : Nat) :
    byteAt { s with mem := (pokeBytes s a bs).mem, pc := p } b =
      if a ≤ b ∧ b < a + bs.length then bs.getD (b - a) 0 else byteAt s b := by
  rw [← byteAt_pokeBytes hs h b]
  show Memory.read s.cfg _ b = Memory.read (pokeBytes s a bs).cfg _ b
  rw [pokeBytes_cfg]

/-- The memory a store leaves depends on the configuration and the memory alone. -/
theorem pokeBytes_mem_congr {s t : State} (hc : s.cfg = t.cfg) (hm : s.mem = t.mem) (a : Nat) (bs : List Byte) :
    (pokeBytes s a bs).mem = (pokeBytes t a bs).mem := by
  induction bs generalizing s t a with
  | nil => exact hm
  | cons b bs ih => exact ih (s := pokeByte s a b) (t := pokeByte t a b) hc (by simp [pokeByte, hc, hm]) (a + 1)

/-- Reading bytes depends on the configuration and the memory alone. -/
theorem readBytes_congr {s t : State} (hc : s.cfg = t.cfg) (hm : s.mem = t.mem) (a n : Nat) :
    readBytes s a n = readBytes t a n := by
  induction n generalizing a with
  | zero => rfl
  | succ n ih => simp only [readBytes, ih, memRead, byteAt, hc, hm]

/-- The last of a block of writable addresses is inside memory. -/
theorem writable_fits {s : State} {a n : Nat} (h : Writable s a (n + 1)) : a + (n + 1) ≤ s.cfg.memSize := by
  have := (h n (by omega)).1; omega

/-- When every address may be written, all the bytes are stored. -/
theorem writeBytes_ok {s : State} {a : Nat} {bs : List Byte} (h : Writable s a bs.length) :
    writeBytes s a bs = .ok (pokeBytes s a bs) := by
  induction bs generalizing s a with
  | nil => rfl
  | cons b bs ih =>
    have h0 := h 0 (by simp)
    rw [writeBytes, (memWrite_ok_iff s _ a b).2 ⟨by simpa using h0.1, by simpa using h0.2, rfl⟩]
    refine ih fun k hk => ?_
    have := h (k + 1) (by simpa using hk)
    simpa [Nat.add_assoc, Nat.add_comm 1 k] using this

/-- When an address may not be written, the first such address is the error. -/
theorem writeBytes_error {s : State} {a : Nat} {bs : List Byte} {k : Nat} (hk : k < bs.length)
    (hbad : s.cfg.memSize ≤ a + k ∨ inFont s.cfg (a + k) = true)
    (hgood : ∀ j < k, a + j < s.cfg.memSize ∧ inFont s.cfg (a + j) = false) :
    writeBytes s a bs = .error (a + k) := by
  induction bs generalizing s a k with
  | nil => simp at hk
  | cons b bs ih =>
    rw [writeBytes]
    cases k with
    | zero => rw [(memWrite_error_iff s a a b).2 ⟨by simpa using hbad, rfl⟩]; rfl
    | succ k =>
      have h0 := hgood 0 (by simp)
      rw [(memWrite_ok_iff s _ a b).2 ⟨by simpa using h0.1, by simpa using h0.2, rfl⟩]
      have shift : ∀ j, a + 1 + j = a + (j + 1) := by omega
      show writeBytes (pokeByte s a b) (a + 1) bs = .error (a + (k + 1))
      rw [ih (s := pokeByte s a b) (a := a + 1) (k := k) (by simpa using hk) (by simpa [shift] using hbad)
        (fun j hj => by simpa [shift] using hgood (j + 1) (by omega)), shift]

/-- When every address is inside memory, the bytes are read in order. -/
theorem readBytes_ok {s : State} {a n : Nat} (h : Readable s a n) :
    readBytes s a n = .ok ((List.range n).map fun k => byteAt s (a + k)) := by
  induction n generalizing a with
  | zero => rfl
  | succ n ih =>
    have hle : a + (n + 1) ≤ s.cfg.memSize := h.resolve_right (by omega)
    rw [readBytes, (memRead_ok_iff s a _).2 ⟨by omega, rfl⟩]
    show (match readBytes s (a + 1) n with | .error e => Except.error e | .ok bs => .ok (byteAt s a :: bs)) = _
    rw [ih (a := a + 1) (.inl (by omega)), List.range_succ_eq_map]
    simp [Function.comp_def, Nat.add_assoc, Nat.add_comm 1]

/-- When an address is outside memory, the first such address is the error. -/
theorem readBytes_error {s : State} {a n k : Nat} (hk : k < n) (hbad : s.cfg.memSize ≤ a + k)
    (hgood : ∀ j < k, a + j < s.cfg.memSize) : readBytes s a n = .error (a + k) := by
  induction n generalizing a k with
  | zero => omega
  | succ n ih =>
    rw [readBytes]
    cases k with
    | zero => rw [(memRead_error_iff s a a).2 ⟨by simpa using hbad, rfl⟩]; rfl
    | succ k =>
      rw [(memRead_ok_iff s a _).2 ⟨by simpa using hgood 0 (by omega), rfl⟩]
      have shift : ∀ j, a + 1 + j = a + (j + 1) := by omega
      show (match readBytes s (a + 1) n with | .error e => Except.error e | .ok bs => .ok (byteAt s a :: bs)) = _
      rw [ih (a := a + 1) (k := k) (by omega) (by simpa [shift] using hbad)
        (fun j hj => by simpa [shift] using hgood (j + 1) (by omega)), shift]

/-- Reading several bytes has no third outcome. -/
theorem readBytes_cases (s : State) (a n : Nat) :
    (Readable s a n ∧ readBytes s a n = .ok ((List.range n).map fun k => byteAt s (a + k))) ∨
    ∃ k < n, s.cfg.memSize ≤ a + k ∧ (∀ j < k, a + j < s.cfg.memSize) ∧ readBytes s a n = .error (a + k) := by
  by_cases h : Readable s a n
  · exact .inl ⟨h, readBytes_ok h⟩
  · have hne : n ≠ 0 := fun e => h (.inr e)
    have hgt : s.cfg.memSize < a + n := by
      by_contra hc; exact h (.inl (by omega))
    refine .inr ⟨s.cfg.memSize - a, by omega, by omega, fun j hj => by omega, ?_⟩
    exact readBytes_error (by omega) (by omega) fun j hj => by omega

/-- Writing several bytes has no third outcome. -/
theorem writeBytes_cases (s : State) (a : Nat) (bs : List Byte) :
    (Writable s a bs.length ∧ writeBytes s a bs = .ok (pokeBytes s a bs)) ∨
    ∃ k < bs.length, (s.cfg.memSize ≤ a + k ∨ inFont s.cfg (a + k) = true) ∧
      (∀ j < k, a + j < s.cfg.memSize ∧ inFont s.cfg (a + j) = false) ∧ writeBytes s a bs = .error (a + k) := by
  by_cases h : Writable s a bs.length
  · exact .inl ⟨h, writeBytes_ok h⟩
  · have bad : ∃ k, k < bs.length ∧ (s.cfg.memSize ≤ a + k ∨ inFont s.cfg (a + k) = true) := by
      by_contra hc
      refine h fun k hk => ⟨?_, ?_⟩
      · by_contra hge; exact hc ⟨k, hk, .inl (by omega)⟩
      · by_contra hf; exact hc ⟨k, hk, .inr (by simpa using hf)⟩
    obtain ⟨hk, hb⟩ := Nat.find_spec bad
    have good : ∀ j < Nat.find bad, a + j < s.cfg.memSize ∧ inFont s.cfg (a + j) = false := by
      intro j hj
      have := Nat.find_min bad hj
      refine ⟨?_, ?_⟩
      · by_contra hge; exact this ⟨by omega, .inl (by omega)⟩
      · by_contra hf; exact this ⟨by omega, .inr (by simpa using hf)⟩
    exact .inr ⟨_, hk, hb, good, writeBytes_error hk hb good⟩

end Sys2Proof.Machine
end

