-- ==== Sys2Proof/Laws/Step.lean ====
section
/-! SUPPORT. What a Step and a meaning can do, said once: provers cite these cases instead of unfolding. -/

namespace Sys2Proof.Machine

/-! ### The cycle -/

theorem step_of_halted {s : State} {r : HaltRecord} (h : s.halt = some r) : step s = .next s := by
  simp [step, cycle, h]

theorem step_of_fetch_error {s : State} {a : Nat} (hr : Running s) (hf : fetch s = .error a) :
    step s = .next (haltedWith s .addressFault none (some a)) := by
  simp [step, cycle, hr, hf]

theorem step_of_fetch {s : State} {op : Word} (hr : Running s) (hf : fetch s = .ok op) :
    step s = runOpcode op s := by
  simp [step, cycle, hr, hf]

theorem runOpcode_of_decode {op : Word} {ins : Instr} (hd : decode op = .ok ins) (s : State) :
    runOpcode op s = exec ins s := by
  simp [runOpcode, hd]

theorem runOpcode_of_unknown {op : Word} {e : DecodeError} (hd : decode op = .error e) (s : State) :
    runOpcode op s = .next { s with pc := s.pc + 2 } := by
  simp [runOpcode, hd, execUnknown]

/-- A Step is one of four things: nothing on a halted machine, a fetch fault, an instruction, or the unknown-opcode
no-op. -/
theorem step_cases (s : State) :
    ((∃ r, s.halt = some r) ∧ step s = .next s) ∨
    (Running s ∧ ∃ a, fetch s = .error a ∧ step s = .next (haltedWith s .addressFault none (some a))) ∨
    (Running s ∧ ∃ op ins, fetch s = .ok op ∧ decode op = .ok ins ∧ step s = exec ins s) ∨
    (Running s ∧ ∃ op e, fetch s = .ok op ∧ decode op = .error e ∧ step s = .next { s with pc := s.pc + 2 }) := by
  rcases Option.eq_none_or_eq_some s.halt with hh | ⟨r, hh⟩
  · rcases hf : fetch s with a | op
    · exact .inr (.inl ⟨hh, a, rfl, step_of_fetch_error hh hf⟩)
    · rcases hd : decode op with e | ins
      · exact .inr (.inr (.inr ⟨hh, op, e, rfl, hd, by rw [step_of_fetch hh hf, runOpcode_of_unknown hd]⟩))
      · exact .inr (.inr (.inl ⟨hh, op, ins, rfl, hd, by rw [step_of_fetch hh hf, runOpcode_of_decode hd]⟩))
  · exact .inl ⟨⟨r, hh⟩, step_of_halted hh⟩

/-- A fetch inside memory reads the big-endian word at PC. -/
theorem fetch_ok {s : State} (h : s.pc.toNat + 1 < s.cfg.memSize) :
    fetch s = .ok (byteAt s s.pc.toNat ++ byteAt s (s.pc.toNat + 1)) := by
  rw [fetch, (memRead_ok_iff s _ _).2 ⟨by omega, rfl⟩]
  show (match memRead s (s.pc.toNat + 1) with | .error a => Except.error a | .ok lo => .ok (byteAt s s.pc.toNat ++ lo)) = _
  rw [(memRead_ok_iff s _ _).2 ⟨h, rfl⟩]

/-- A fetch that leaves memory fails at PC, or at PC + 1 when PC itself is inside. -/
theorem fetch_error {s : State} (h : s.cfg.memSize ≤ s.pc.toNat + 1) :
    fetch s = .error (if s.cfg.memSize ≤ s.pc.toNat then s.pc.toNat else s.pc.toNat + 1) := by
  rw [fetch]
  by_cases h0 : s.cfg.memSize ≤ s.pc.toNat
  · rw [(memRead_error_iff s _ _).2 ⟨h0, rfl⟩, if_pos h0]
  · rw [(memRead_ok_iff s _ _).2 ⟨by omega, rfl⟩, if_neg h0]
    show (match memRead s (s.pc.toNat + 1) with | .error a => Except.error a | .ok lo => .ok (byteAt s s.pc.toNat ++ lo)) = _
    rw [(memRead_error_iff s _ _).2 ⟨h, rfl⟩]

/-- What a fetch gives depends on PC, the configuration and the memory alone. -/
theorem fetch_congr {s t : State} (hp : s.pc = t.pc) (hc : s.cfg = t.cfg) (hm : s.mem = t.mem) :
    fetch s = fetch t := by
  simp only [fetch, memRead, byteAt, hp, hc, hm]

/-! ### Meanings with more than one outcome -/

/-- RET pops, or underflows at depth 0. -/
theorem execRet_cases (s : State) :
    (s.depth = 0 ∧ execRet s = .next (haltedWith s .stackUnderflow (some (encode .ret)) none)) ∨
    (s.depth ≠ 0 ∧
      execRet s = .next { s with pc := s.stack.getD (s.depth - 1) 0, depth := s.depth - 1 }) := by
  unfold execRet; by_cases h : s.depth = 0 <;> simp [h]

/-- CALL pushes, or overflows at depth S. -/
theorem execCall_cases (nnn : Addr12) (s : State) :
    (s.depth = s.cfg.stackDepth ∧
      execCall nnn s = .next (haltedWith s .stackOverflow (some (encode (.call nnn))) none)) ∨
    (s.depth ≠ s.cfg.stackDepth ∧
      execCall nnn s = .next { s with
        stack := s.stack.set s.depth (s.pc + 2), depth := s.depth + 1, pc := zextAddr nnn }) := by
  unfold execCall; by_cases h : s.depth = s.cfg.stackDepth <;> simp [h]

/-- The bytes a draw of `n` rows reads. -/
def spriteRows (s : State) (n : Nat) : List Byte := (List.range n).map fun r => byteAt s (s.i.toNat + r)

/-- What a draw leaves, as one update of the state. -/
theorem drawRows_eq (x y : Reg) (s : State) (rows : List Byte) :
    drawRows x y s rows = .next { s with
      pixels := (flipPixels s.pixels (spritePoints s.w s.h s.v[x].toNat s.v[y].toNat 0 rows)).1
      v := s.v.set 15
        (flagByte (flipPixels s.pixels (spritePoints s.w s.h s.v[x].toNat s.v[y].toNat 0 rows)).2)
      pc := s.pc + 2 } := rfl

/-- DRW draws its rows, or faults at the first sprite byte outside memory. -/
theorem execDrw_cases (x y : Reg) (n : Nibble) (s : State) :
    (Readable s s.i.toNat n.toNat ∧ execDrw x y n s = drawRows x y s (spriteRows s n.toNat)) ∨
    ∃ k < n.toNat, s.cfg.memSize ≤ s.i.toNat + k ∧ (∀ j < k, s.i.toNat + j < s.cfg.memSize) ∧
      execDrw x y n s =
        .next (haltedWith s .addressFault (some (encode (.drw x y n))) (some (s.i.toNat + k))) := by
  unfold execDrw
  rcases readBytes_cases s s.i.toNat n.toNat with ⟨h, e⟩ | ⟨k, hk, h1, h2, e⟩
  · exact .inl ⟨h, by rw [e]; rfl⟩
  · exact .inr ⟨k, hk, h1, h2, by rw [e]; rfl⟩

/-- Fx65 loads its registers, or faults at the first address outside memory. -/
theorem execLdVxMem_cases (x : Reg) (s : State) :
    (Readable s s.i.toNat (x.val + 1) ∧
      execLdVxMem x s = .next { s with
        v := loadRegisters s.v 0 ((List.range (x.val + 1)).map fun k => byteAt s (s.i.toNat + k)), pc := s.pc + 2 }) ∨
    ∃ k < x.val + 1, s.cfg.memSize ≤ s.i.toNat + k ∧ (∀ j < k, s.i.toNat + j < s.cfg.memSize) ∧
      execLdVxMem x s =
        .next (haltedWith s .addressFault (some (encode (.ldVxMem x))) (some (s.i.toNat + k))) := by
  unfold execLdVxMem
  rcases readBytes_cases s s.i.toNat (x.val + 1) with ⟨h, e⟩ | ⟨k, hk, h1, h2, e⟩
  · exact .inl ⟨h, by rw [e]; rfl⟩
  · exact .inr ⟨k, hk, h1, h2, by rw [e]; rfl⟩

/-- A storing instruction stores all its bytes, or faults at the first address it may not write. -/
theorem store_cases (ins : Instr) (s : State) (bs : List Byte) :
    (Writable s s.i.toNat bs.length ∧ withAccess ins s (writeBytes s s.i.toNat bs) advance =
      .next { s with mem := (pokeBytes s s.i.toNat bs).mem, pc := s.pc + 2 }) ∨
    ∃ k < bs.length, (s.cfg.memSize ≤ s.i.toNat + k ∨ inFont s.cfg (s.i.toNat + k) = true) ∧
      Writable s s.i.toNat k ∧ withAccess ins s (writeBytes s s.i.toNat bs) advance =
        .next (haltedWith s .addressFault (some (encode ins)) (some (s.i.toNat + k))) := by
  rcases writeBytes_cases s s.i.toNat bs with ⟨h, e⟩ | ⟨k, hk, h1, h2, e⟩
  · refine .inl ⟨h, ?_⟩
    rw [e, withAccess_ok, advance_eq, pokeBytes_frame]
  · exact .inr ⟨k, hk, h1, h2, by rw [e]; rfl⟩

@[simp] theorem bcdDigits_length (b : Byte) : (bcdDigits b).length = 3 := rfl

@[simp] theorem registersUpTo_length (s : State) (x : Reg) : (registersUpTo s x).length = x.val + 1 := by
  simp [registersUpTo]

theorem execLdB_cases (x : Reg) (s : State) :
    (Writable s s.i.toNat 3 ∧
      execLdB x s = .next { s with mem := (pokeBytes s s.i.toNat (bcdDigits s.v[x])).mem, pc := s.pc + 2 }) ∨
    ∃ k < 3, (s.cfg.memSize ≤ s.i.toNat + k ∨ inFont s.cfg (s.i.toNat + k) = true) ∧ Writable s s.i.toNat k ∧
      execLdB x s = .next (haltedWith s .addressFault (some (encode (.ldB x))) (some (s.i.toNat + k))) :=
  store_cases (.ldB x) s (bcdDigits s.v[x])

theorem execLdMemVx_cases (x : Reg) (s : State) :
    (Writable s s.i.toNat (x.val + 1) ∧
      execLdMemVx x s = .next { s with mem := (pokeBytes s s.i.toNat (registersUpTo s x)).mem, pc := s.pc + 2 }) ∨
    ∃ k < x.val + 1, (s.cfg.memSize ≤ s.i.toNat + k ∨ inFont s.cfg (s.i.toNat + k) = true) ∧
      Writable s s.i.toNat k ∧
      execLdMemVx x s = .next (haltedWith s .addressFault (some (encode (.ldMemVx x))) (some (s.i.toNat + k))) := by
  have h := store_cases (.ldMemVx x) s (registersUpTo s x)
  rw [registersUpTo_length] at h
  exact h

/-- Fx0A stores the least pressed key, or holds when no key is pressed. -/
theorem execLdVxK_cases (x : Reg) (s : State) :
    (leastKey s = none ∧ (∀ k : Reg, s.keys[k] = false) ∧ execLdVxK x s = .next s) ∨
    ∃ k : Reg, leastKey s = some k ∧ s.keys[k] = true ∧ (∀ j : Reg, j < k → s.keys[j] = false) ∧
      execLdVxK x s = .next { s with v := s.v.set x (BitVec.ofNat 8 k.val), pc := s.pc + 2 } := by
  unfold execLdVxK
  cases h : leastKey s with
  | none => exact .inl ⟨rfl, fun k => by simpa using List.find?_eq_none.1 h k (by simp), rfl⟩
  | some k =>
    obtain ⟨hk, before, after, hl, hb⟩ := List.find?_eq_some_iff_append.1 h
    refine .inr ⟨k, rfl, hk, fun j hj => ?_, rfl⟩
    have hsort : (before ++ k :: after).Pairwise (· < ·) := hl ▸ List.pairwise_lt_finRange 16
    have hmem : j ∈ before ++ k :: after := hl ▸ List.mem_finRange j
    rcases List.mem_append.1 hmem with hj' | hj'
    · simpa using hb j hj'
    · obtain ⟨-, h2, -⟩ := List.pairwise_append.1 hsort
      rcases List.mem_cons.1 hj' with rfl | hj'
      · exact absurd hj (lt_irrefl _)
      · exact absurd ((List.pairwise_cons.1 h2).1 j hj') (not_lt.2 hj.le)

/-- What the halt record of an instruction that raises says (R210 to R212), per instruction; `False` for one that never
raises. -/
def RaisedBy (s : State) (r : HaltRecord) : Instr → Prop
  | .ret => s.depth = 0 ∧ r = { cause := .stackUnderflow, pc := s.pc, opcode := some (encode .ret), addr := none }
  | .call nnn => s.depth = s.cfg.stackDepth ∧
      r = { cause := .stackOverflow, pc := s.pc, opcode := some (encode (.call nnn)), addr := none }
  | .drw x y n => ∃ k < n.toNat, s.cfg.memSize ≤ s.i.toNat + k ∧
      r = { cause := .addressFault, pc := s.pc, opcode := some (encode (.drw x y n)), addr := some (s.i.toNat + k) }
  | .ldB x => ∃ k < 3, (s.cfg.memSize ≤ s.i.toNat + k ∨ inFont s.cfg (s.i.toNat + k) = true) ∧
      r = { cause := .addressFault, pc := s.pc, opcode := some (encode (.ldB x)), addr := some (s.i.toNat + k) }
  | .ldMemVx x => ∃ k < x.val + 1, (s.cfg.memSize ≤ s.i.toNat + k ∨ inFont s.cfg (s.i.toNat + k) = true) ∧
      r = { cause := .addressFault, pc := s.pc, opcode := some (encode (.ldMemVx x)), addr := some (s.i.toNat + k) }
  | .ldVxMem x => ∃ k < x.val + 1, s.cfg.memSize ≤ s.i.toNat + k ∧
      r = { cause := .addressFault, pc := s.pc, opcode := some (encode (.ldVxMem x)), addr := some (s.i.toNat + k) }
  | _ => False

/-- An instruction raises, and then the halt record is all that changes, or completes, and then the halt record is as it
was. -/
theorem exec_raises_or_completes (ins : Instr) (s : State) :
    (∃ r, RaisedBy s r ins ∧ exec ins s = .next { s with halt := some r }) ∨
    (∃ t, exec ins s = .next t ∧ t.halt = s.halt) := by
  cases ins with
  | ret =>
    rcases execRet_cases s with ⟨h, e⟩ | ⟨-, e⟩
    · exact .inl ⟨_, ⟨h, rfl⟩, e⟩
    · exact .inr ⟨_, e, rfl⟩
  | call nnn =>
    rcases execCall_cases nnn s with ⟨h, e⟩ | ⟨-, e⟩
    · exact .inl ⟨_, ⟨h, rfl⟩, e⟩
    · exact .inr ⟨_, e, rfl⟩
  | drw x y n =>
    rcases execDrw_cases x y n s with ⟨-, e⟩ | ⟨k, hk, hb, -, e⟩
    · exact .inr ⟨_, e, rfl⟩
    · exact .inl ⟨_, ⟨k, hk, hb, rfl⟩, e⟩
  | ldVxK x =>
    rcases execLdVxK_cases x s with ⟨_, _, e⟩ | ⟨_, _, _, _, e⟩ <;> exact .inr ⟨_, e, rfl⟩
  | ldB x =>
    rcases execLdB_cases x s with ⟨-, e⟩ | ⟨k, hk, hb, -, e⟩
    · exact .inr ⟨_, e, rfl⟩
    · exact .inl ⟨_, ⟨k, hk, hb, rfl⟩, e⟩
  | ldMemVx x =>
    rcases execLdMemVx_cases x s with ⟨-, e⟩ | ⟨k, hk, hb, -, e⟩
    · exact .inr ⟨_, e, rfl⟩
    · exact .inl ⟨_, ⟨k, hk, hb, rfl⟩, e⟩
  | ldVxMem x =>
    rcases execLdVxMem_cases x s with ⟨-, e⟩ | ⟨k, hk, hb, -, e⟩
    · exact .inr ⟨_, e, rfl⟩
    · exact .inl ⟨_, ⟨k, hk, hb, rfl⟩, e⟩
  | _ => exact .inr ⟨_, rfl, rfl⟩

/-- Every instruction answers a next state; `exec` has no other outcome. -/
theorem exec_next (ins : Instr) (s : State) : ∃ t, exec ins s = .next t := by
  rcases exec_raises_or_completes ins s with ⟨_, -, e⟩ | ⟨_, e, -⟩ <;> exact ⟨_, e⟩

/-- What writing consecutive registers leaves in each. -/
theorem loadRegisters_getElem (v : Vector Byte 16) (k : Nat) (bs : List Byte) (j : Reg) :
    (loadRegisters v k bs)[j] = if k ≤ j.val ∧ j.val < k + bs.length then bs.getD (j.val - k) 0 else v[j] := by
  induction bs generalizing v k with
  | nil => rw [if_neg (by simp)]; rfl
  | cons b bs ih =>
    rw [loadRegisters, ih]
    simp only [Fin.getElem_fin, Vector.getElem_setIfInBounds, List.length_cons]
    by_cases h1 : k = j.val
    · subst h1; simp
    · by_cases h2 : k + 1 ≤ j.val ∧ j.val < k + 1 + bs.length
      · rw [if_pos h2, if_pos (by omega), show j.val - k = (j.val - (k + 1)) + 1 by omega]; simp
      · rw [if_neg h2, if_neg h1, if_neg (by omega)]

end Sys2Proof.Machine
end

