-- ==== Sys2Proof/Laws/Display.lean ====
section
/-! SUPPORT. The display: one pixel, the shape of the buffer, and what XORing a list of pixels leaves, in closed form
(spec/42_display.md R161). -/

namespace Sys2Proof.Machine

/-- A buffer of `h` rows of `w` pixels (R31). -/
abbrev Shaped (d : Display) (w h : Nat) : Prop := d.length = h ∧ ∀ row ∈ d, row.length = w

/-- A dark display has its shape. -/
theorem darkDisplay_shaped (w h : Nat) : Shaped (darkDisplay w h) w h := by
  refine ⟨by simp [darkDisplay], fun row hr => ?_⟩
  rw [List.eq_of_mem_replicate hr]; simp

theorem pixelAt_darkDisplay (w h x y : Nat) : pixelAt (darkDisplay w h) x y = false := by
  unfold pixelAt darkDisplay
  by_cases hy : y < h
  · by_cases hx : x < w <;> simp [List.getD_eq_getElem?_getD, hy, hx]
  · simp [List.getD_eq_getElem?_getD, hy]

theorem setPixel_shaped {d : Display} {w h : Nat} (hd : Shaped d w h) (x y : Nat) (b : Bool) :
    Shaped (setPixel d x y b) w h := by
  refine ⟨by simp [setPixel, hd.1], fun row hr => ?_⟩
  by_cases hy : y < d.length
  · rcases List.mem_or_eq_of_mem_set hr with hr | rfl
    · exact hd.2 row hr
    · rw [List.length_set, List.getD_eq_getElem?_getD, List.getElem?_eq_getElem hy]
      exact hd.2 _ (List.getElem_mem hy)
  · rw [setPixel, List.set_eq_of_length_le (by omega)] at hr
    exact hd.2 row hr

/-- A pixel read after one is written. -/
theorem pixelAt_setPixel {d : Display} {w h x y : Nat} (hd : Shaped d w h) (hx : x < w) (hy : y < h) (b : Bool)
    (px py : Nat) :
    pixelAt (setPixel d x y b) px py = if (px, py) = (x, y) then b else pixelAt d px py := by
  have hy' : y < d.length := hd.1 ▸ hy
  have hrow : (d.getD y []).length = w := by
    rw [List.getD_eq_getElem?_getD, List.getElem?_eq_getElem hy']; exact hd.2 _ (List.getElem_mem hy')
  unfold pixelAt setPixel
  by_cases h1 : py = y
  · subst h1
    have : (d.set py ((d.getD py []).set x b)).getD py [] = (d.getD py []).set x b := by
      simp [List.getD_eq_getElem?_getD, hy']
    rw [this]
    by_cases h2 : px = x
    · subst h2
      rw [List.getD_eq_getElem?_getD, List.getElem?_set_self (by rw [hrow]; exact hx)]; simp
    · rw [List.getD_eq_getElem?_getD, List.getElem?_set_ne (Ne.symm h2)]; simp [h2]
  · have : (d.set y ((d.getD y []).set x b)).getD py [] = d.getD py [] := by
      simp [List.getD_eq_getElem?_getD, List.getElem?_set_ne (Ne.symm h1)]
    rw [this]; simp [h1]

theorem flipPixels_aux {w h : Nat} (ps : List (Nat × Nat)) : ∀ (d : Display) (f : Bool), Shaped d w h →
    (∀ p ∈ ps, p.1 < w ∧ p.2 < h) →
    Shaped (ps.foldl flipPixel (d, f)).1 w h ∧
    (∀ px py, pixelAt (ps.foldl flipPixel (d, f)).1 px py =
      (pixelAt d px py ^^ decide (ps.count (px, py) % 2 = 1))) ∧
    ((ps.foldl flipPixel (d, f)).2 = true ↔
      f = true ∨ ∃ p, (pixelAt d p.1 p.2 = true ∧ 1 ≤ ps.count p) ∨ 2 ≤ ps.count p) := by
  induction ps with
  | nil => intro d f hd _; exact ⟨hd, by simp, by simp⟩
  | cons p ps ih =>
    intro d f hd hin
    obtain ⟨hx, hy⟩ := hin p (by simp)
    have hpix := pixelAt_setPixel hd hx hy (!pixelAt d p.1 p.2)
    obtain ⟨h1, h2, h3⟩ := ih (setPixel d p.1 p.2 (!pixelAt d p.1 p.2)) (f || pixelAt d p.1 p.2)
      (setPixel_shaped hd _ _ _) fun q hq => hin q (by simp [hq])
    refine ⟨h1, fun px py => ?_, ?_⟩
    · show pixelAt (ps.foldl flipPixel (flipPixel (d, f) p)).1 px py = _
      rw [flipPixel, h2, hpix, List.count_cons]
      by_cases e : (px, py) = p
      · subst e
        rcases Nat.mod_two_eq_zero_or_one (ps.count (px, py)) with hc | hc <;>
          cases pixelAt d px py <;> simp [hc] <;> omega
      · have e' : ¬ p = (px, py) := fun h => e h.symm
        simp [e, e']
    · show (ps.foldl flipPixel (flipPixel (d, f) p)).2 = true ↔ _
      rw [flipPixel, h3]
      constructor
      · rintro (hf | ⟨q, hq⟩)
        · rcases Bool.or_eq_true_iff.1 hf with hf | hf
          · exact .inl hf
          · exact .inr ⟨p, .inl ⟨hf, by simp⟩⟩
        · refine .inr ⟨q, ?_⟩
          rw [List.count_cons]
          by_cases e : q = p
          · subst e
            rw [if_pos (beq_self_eq_true q)]
            rcases hq with ⟨_, hc⟩ | hc <;> right <;> omega
          · have e' : ¬ p = q := fun h => e h.symm
            rw [hpix, if_neg (by simpa using e)] at hq
            simpa [e'] using hq
      · rintro (hf | ⟨q, hq⟩)
        · exact .inl (by simp [hf])
        · rw [List.count_cons] at hq
          by_cases e : q = p
          · subst e
            by_cases hl : pixelAt d q.1 q.2 = true
            · exact .inl (by simp [hl])
            · refine .inr ⟨q, .inl ⟨by rw [hpix, if_pos rfl]; simpa using hl, ?_⟩⟩
              rcases hq with ⟨hq, _⟩ | hc
              · exact absurd hq hl
              · rw [if_pos (beq_self_eq_true q)] at hc; omega
          · have e' : ¬ p = q := fun h => e h.symm
            refine .inr ⟨q, ?_⟩
            rw [hpix, if_neg (by simpa using e)]
            simpa [e'] using hq

/-- What XORing a list of grid pixels one after the other leaves: each pixel flipped as often as it is listed, the shape
kept, and `hit` set exactly if a lit pixel is listed or a pixel is listed twice. -/
theorem flipPixels_spec {d : Display} {w h : Nat} (hd : Shaped d w h) {ps : List (Nat × Nat)}
    (hin : ∀ p ∈ ps, p.1 < w ∧ p.2 < h) :
    Shaped (flipPixels d ps).1 w h ∧
    (∀ px py, pixelAt (flipPixels d ps).1 px py = (pixelAt d px py ^^ decide (ps.count (px, py) % 2 = 1))) ∧
    ((flipPixels d ps).2 = true ↔ ∃ p, (pixelAt d p.1 p.2 = true ∧ 1 ≤ ps.count p) ∨ 2 ≤ ps.count p) := by
  obtain ⟨h1, h2, h3⟩ := flipPixels_aux ps d false hd hin
  exact ⟨h1, h2, by simpa [flipPixels] using h3⟩

/-- Every pixel a sprite visits is on the grid (R31: "no access falls outside the grid"). -/
theorem spritePoints_inside {w h : Nat} (hw : 1 ≤ w) (hh : 1 ≤ h) (vx vy r : Nat) (bs : List Byte) :
    ∀ p ∈ spritePoints w h vx vy r bs, p.1 < w ∧ p.2 < h := by
  induction bs generalizing r with
  | nil => simp [spritePoints]
  | cons b bs ih =>
    intro p hp
    rw [spritePoints, List.mem_append] at hp
    rcases hp with hp | hp
    · obtain ⟨c, -, hc⟩ := List.mem_filterMap.1 hp
      split at hc
      · obtain rfl := Option.some.inj hc
        exact ⟨Nat.mod_lt _ hw, Nat.mod_lt _ hh⟩
      · exact absurd hc (by simp)
    · exact ih (r + 1) p hp

/-- How often one sprite byte visits a pixel, counted over its bits. -/
theorem count_rowPoints (w vx py : Nat) (b : Byte) (p : Nat × Nat) :
    (rowPoints w vx py b).count p =
      (List.range 8).countP fun c => b.getLsbD (7 - c) && (vx + c) % w == p.1 && py == p.2 := by
  unfold rowPoints
  induction List.range 8 with
  | nil => rfl
  | cons c cs ih =>
    rw [List.countP_cons, ← ih, List.filterMap_cons]
    by_cases hb : b.getLsbD (7 - c) = true
    · simp only [hb, if_true, List.count_cons, Bool.true_and]
      rfl
    · simp [hb]

/-- How often a draw of the bytes `bs` from row `r` visits a pixel, counted over the bits of the sprite. -/
theorem count_spritePoints (w h vx vy r : Nat) (bs : List Byte) (p : Nat × Nat) :
    (spritePoints w h vx vy r bs).count p =
      ((List.range bs.length).flatMap fun k => (List.range 8).map fun c => (k, c)).countP fun kc =>
        (bs.getD kc.1 0).getLsbD (7 - kc.2) && (vx + kc.2) % w == p.1 && (vy + (r + kc.1)) % h == p.2 := by
  induction bs generalizing r with
  | nil => rfl
  | cons b bs ih =>
    rw [spritePoints, List.count_append, count_rowPoints, ih, List.length_cons, List.range_succ_eq_map (n := bs.length),
      List.flatMap_cons, List.countP_append, List.countP_map, List.flatMap_map]
    congr 1
    rw [List.countP_flatMap, List.countP_flatMap]
    congr 1
    refine List.map_congr_left fun k _ => ?_
    simp only [Function.comp_apply, List.countP_map]
    refine List.countP_congr fun c _ => ?_
    simp [Nat.add_assoc, Nat.add_comm 1 k]

/-- The list of pixels a draw XORs holds a pixel as often as `spriteVisits` counts. -/
theorem count_spritePoints_rows (s : State) (vx vy n px py : Nat) :
    (spritePoints s.w s.h vx vy 0 (spriteRows s n)).count (px, py) = spriteVisits s vx vy n px py := by
  rw [count_spritePoints, spriteVisits]
  have hl : (spriteRows s n).length = n := by simp [spriteRows]
  rw [hl]
  refine List.countP_congr fun kc hkc => ?_
  obtain ⟨k, hk, c, -, rfl⟩ := by simpa using hkc
  simp [spriteRows, spriteBit, List.getD_eq_getElem?_getD, hk]
/-- Two displays of one shape with the same pixels are the same. -/
theorem display_ext {d e : Display} {w h : Nat} (hd : Shaped d w h) (he : Shaped e w h)
    (heq : ∀ px < w, ∀ py < h, pixelAt d px py = pixelAt e px py) : d = e := by
  refine List.ext_getElem (by rw [hd.1, he.1]) fun y hy hy' => ?_
  have hdr := hd.2 _ (List.getElem_mem hy)
  have her := he.2 _ (List.getElem_mem hy')
  refine List.ext_getElem (by rw [hdr, her]) fun x hx hx' => ?_
  have := heq x (by omega) y (by have := hd.1; omega)
  simpa [pixelAt, List.getD_eq_getElem?_getD, hy, hy', hx, hx'] using this

end Sys2Proof.Machine
end

