-- ==== Sys2Proof/Laws/PerInstr.lean ====
section
/-! SUPPORT. The per-instruction family RowMatch: every bit that R75 fixes for an instruction's row stands in its word. -/

namespace Sys2Proof.Laws

/-- The word of an instruction has its row's match under its row's mask (R75). -/
def RowMatch.Statement (i : Instr) : Prop :=
  ∃ value mask, opcodeMap[i.rowNumber - 1]? = some (value, mask) ∧ encode i &&& mask = value

/-! ### What the masks keep -/

theorem and_F (c : Nibble) : c &&& 15#4 = c := by
  rw [show (15#4) = BitVec.allOnes 4 from rfl, BitVec.and_allOnes]

theorem and_FF (b : Byte) : b &&& 255#8 = b := by
  rw [show (255#8) = BitVec.allOnes 8 from rfl, BitVec.and_allOnes]

theorem packA_and_F000 (c : Nibble) (nnn : Addr12) : packA c nnn &&& 0xF000#16 = packA c 0 := by
  have h : (c ++ nnn : BitVec (4 + 12)) &&& (0xF#4 ++ 0x000#12) = c ++ 0#12 := by
    rw [BitVec.and_append]; simp [and_F]
  exact h

theorem packXK_and_F000 (c : Nibble) (x : Reg) (kk : Byte) : packXK c x kk &&& 0xF000#16 = packA c 0 := by
  have h : (c ++ regField x ++ kk : BitVec (4 + 4 + 8)) &&& (0xF#4 ++ 0x0#4 ++ 0x00#8) = c ++ 0#4 ++ 0#8 := by
    rw [BitVec.and_append, BitVec.and_append]; simp [and_F]
  exact h.trans (BitVec.eq_of_toNat_eq (by
    rw [append_toNat, append_toNat]; exact (packA_toNat c 0).symm ▸ (by simp; ring)))

theorem packXK_and_F0FF (c : Nibble) (x : Reg) (kk : Byte) : packXK c x kk &&& 0xF0FF#16 = packXK c 0 kk := by
  have h : (c ++ regField x ++ kk : BitVec (4 + 4 + 8)) &&& (0xF#4 ++ 0x0#4 ++ 0xFF#8) = c ++ 0#4 ++ kk := by
    rw [BitVec.and_append, BitVec.and_append]
    simp [and_F, and_FF]
  exact h

theorem packXYN_and_F00F (c : Nibble) (x y : Reg) (n : Nibble) :
    packXYN c x y n &&& 0xF00F#16 = packXYN c 0 0 n := by
  have h : (c ++ regField x ++ regField y ++ n : BitVec (4 + 4 + 4 + 4)) &&& (0xF#4 ++ 0x0#4 ++ 0x0#4 ++ 0xF#4)
      = c ++ 0#4 ++ 0#4 ++ n := by
    rw [BitVec.and_append, BitVec.and_append, BitVec.and_append]
    simp [and_F]
  exact h

theorem packXYN_and_F000 (c : Nibble) (x y : Reg) (n : Nibble) :
    packXYN c x y n &&& 0xF000#16 = packXYN c 0 0 0 := by
  have h : (c ++ regField x ++ regField y ++ n : BitVec (4 + 4 + 4 + 4)) &&& (0xF#4 ++ 0x0#4 ++ 0x0#4 ++ 0x0#4)
      = c ++ 0#4 ++ 0#4 ++ 0#4 := by
    rw [BitVec.and_append, BitVec.and_append, BitVec.and_append]
    simp [and_F]
  exact h

/-! ### The family -/

theorem RowMatch.cls : RowMatch.Statement .cls := ⟨_, _, rfl, rfl⟩
theorem RowMatch.ret : RowMatch.Statement .ret := ⟨_, _, rfl, rfl⟩
theorem RowMatch.sys (nnn : Addr12) : RowMatch.Statement (.sys nnn) := ⟨_, _, rfl, packA_and_F000 _ nnn⟩
theorem RowMatch.jp (nnn : Addr12) : RowMatch.Statement (.jp nnn) := ⟨_, _, rfl, packA_and_F000 _ nnn⟩
theorem RowMatch.call (nnn : Addr12) : RowMatch.Statement (.call nnn) := ⟨_, _, rfl, packA_and_F000 _ nnn⟩
theorem RowMatch.seImm (x : Reg) (kk : Byte) : RowMatch.Statement (.seImm x kk) := ⟨_, _, rfl, packXK_and_F000 _ x kk⟩
theorem RowMatch.sneImm (x : Reg) (kk : Byte) : RowMatch.Statement (.sneImm x kk) := ⟨_, _, rfl, packXK_and_F000 _ x kk⟩
theorem RowMatch.seReg (x : Reg) (y : Reg) : RowMatch.Statement (.seReg x y) := ⟨_, _, rfl, packXYN_and_F00F _ x y _⟩
theorem RowMatch.ldImm (x : Reg) (kk : Byte) : RowMatch.Statement (.ldImm x kk) := ⟨_, _, rfl, packXK_and_F000 _ x kk⟩
theorem RowMatch.addImm (x : Reg) (kk : Byte) : RowMatch.Statement (.addImm x kk) := ⟨_, _, rfl, packXK_and_F000 _ x kk⟩
theorem RowMatch.ldReg (x : Reg) (y : Reg) : RowMatch.Statement (.ldReg x y) := ⟨_, _, rfl, packXYN_and_F00F _ x y _⟩
theorem RowMatch.orReg (x : Reg) (y : Reg) : RowMatch.Statement (.orReg x y) := ⟨_, _, rfl, packXYN_and_F00F _ x y _⟩
theorem RowMatch.andReg (x : Reg) (y : Reg) : RowMatch.Statement (.andReg x y) := ⟨_, _, rfl, packXYN_and_F00F _ x y _⟩
theorem RowMatch.xorReg (x : Reg) (y : Reg) : RowMatch.Statement (.xorReg x y) := ⟨_, _, rfl, packXYN_and_F00F _ x y _⟩
theorem RowMatch.addReg (x : Reg) (y : Reg) : RowMatch.Statement (.addReg x y) := ⟨_, _, rfl, packXYN_and_F00F _ x y _⟩
theorem RowMatch.subReg (x : Reg) (y : Reg) : RowMatch.Statement (.subReg x y) := ⟨_, _, rfl, packXYN_and_F00F _ x y _⟩
theorem RowMatch.shr (x : Reg) (y : Reg) : RowMatch.Statement (.shr x y) := ⟨_, _, rfl, packXYN_and_F00F _ x y _⟩
theorem RowMatch.subnReg (x : Reg) (y : Reg) : RowMatch.Statement (.subnReg x y) := ⟨_, _, rfl, packXYN_and_F00F _ x y _⟩
theorem RowMatch.shl (x : Reg) (y : Reg) : RowMatch.Statement (.shl x y) := ⟨_, _, rfl, packXYN_and_F00F _ x y _⟩
theorem RowMatch.sneReg (x : Reg) (y : Reg) : RowMatch.Statement (.sneReg x y) := ⟨_, _, rfl, packXYN_and_F00F _ x y _⟩
theorem RowMatch.ldI (nnn : Addr12) : RowMatch.Statement (.ldI nnn) := ⟨_, _, rfl, packA_and_F000 _ nnn⟩
theorem RowMatch.jpV0 (nnn : Addr12) : RowMatch.Statement (.jpV0 nnn) := ⟨_, _, rfl, packA_and_F000 _ nnn⟩
theorem RowMatch.rnd (x : Reg) (kk : Byte) : RowMatch.Statement (.rnd x kk) := ⟨_, _, rfl, packXK_and_F000 _ x kk⟩
theorem RowMatch.drw (x : Reg) (y : Reg) (n : Nibble) : RowMatch.Statement (.drw x y n) := ⟨_, _, rfl, packXYN_and_F000 _ x y n⟩
theorem RowMatch.skp (x : Reg) : RowMatch.Statement (.skp x) := ⟨_, _, rfl, packXK_and_F0FF _ x _⟩
theorem RowMatch.sknp (x : Reg) : RowMatch.Statement (.sknp x) := ⟨_, _, rfl, packXK_and_F0FF _ x _⟩
theorem RowMatch.ldVxDt (x : Reg) : RowMatch.Statement (.ldVxDt x) := ⟨_, _, rfl, packXK_and_F0FF _ x _⟩
theorem RowMatch.ldVxK (x : Reg) : RowMatch.Statement (.ldVxK x) := ⟨_, _, rfl, packXK_and_F0FF _ x _⟩
theorem RowMatch.ldDtVx (x : Reg) : RowMatch.Statement (.ldDtVx x) := ⟨_, _, rfl, packXK_and_F0FF _ x _⟩
theorem RowMatch.ldStVx (x : Reg) : RowMatch.Statement (.ldStVx x) := ⟨_, _, rfl, packXK_and_F0FF _ x _⟩
theorem RowMatch.addI (x : Reg) : RowMatch.Statement (.addI x) := ⟨_, _, rfl, packXK_and_F0FF _ x _⟩
theorem RowMatch.ldF (x : Reg) : RowMatch.Statement (.ldF x) := ⟨_, _, rfl, packXK_and_F0FF _ x _⟩
theorem RowMatch.ldB (x : Reg) : RowMatch.Statement (.ldB x) := ⟨_, _, rfl, packXK_and_F0FF _ x _⟩
theorem RowMatch.ldMemVx (x : Reg) : RowMatch.Statement (.ldMemVx x) := ⟨_, _, rfl, packXK_and_F0FF _ x _⟩
theorem RowMatch.ldVxMem (x : Reg) : RowMatch.Statement (.ldVxMem x) := ⟨_, _, rfl, packXK_and_F0FF _ x _⟩

end Sys2Proof.Laws
end

