-- ==== Sys2Proof/Tests/Slice0.lean ====
section
/-! SUPPORT. Tests: the ill-formed terms, decoding words written out from the formats of R72, single steps whose expected
results are the vectors of spec/95_test_vectors.md (named in each docstring), and a witness for the hypotheses of every
statement that has some. -/

namespace Sys2Proof.Tests

open Sys2Proof Sys2Proof.Machine

/-! ### Helpers -/

/-- The state after one Step that runs the opcode `op` (placed at 0x200 in a reset machine). -/
def run1 (s : State) (op : Nat) : State := afterStep (s.withFetchWord 16 op)

/-- V[x], VF and PC. -/
def seen (s : State) (x : Reg) : Byte × Byte × Word := (s.v[x], s.v[(15 : Reg)], s.pc)

/-- A reset machine with one register set. -/
def v1 (x : Reg) (b : Byte) : State := setV State.reset x b

/-- A reset machine with two registers set. -/
def v2 (x : Reg) (b : Byte) (y : Reg) (c : Byte) : State := setV (v1 x b) y c

/-- A state with I set. -/
def withI (s : State) (a : Word) : State := { s with i := a }

/-- A state with PC set. -/
def withPc (s : State) (a : Word) : State := { s with pc := a }

/-- A reset machine with `depth` return addresses, the top one `top`. -/
def called (depth : Nat) (top : Word) : State :=
  { State.reset with depth := depth, stack := State.reset.stack.set (depth - 1) top }

/-- A reset machine with the keys of a list pressed. -/
def pressed (ks : List Nat) : State := { State.reset with keys := Vector.ofFn fun k => ks.contains k.val }

/-- A reset machine with an opcode at PC = `a`. -/
def opAt (s : State) (a : Word) (hi lo : Byte) : State := pokeBytes (withPc s a) a.toNat [hi, lo]

/-- A halted machine. -/
def stopped : State :=
  { State.reset with
    halt := some { cause := .stackUnderflow, pc := 0x200, opcode := some 0x00EE, addr := none } }

/-- The pixels lit in a rectangle at the origin. -/
def lit (s : State) (w h : Nat) : List (Nat × Nat) :=
  ((List.range h).flatMap fun y => (List.range w).map fun x => (x, y)).filter fun p => pix s p.1 p.2

/-- The cause, PC, opcode and address of a halt record, as numbers. -/
def halted (s : State) : Option (Nat × Nat × Option Nat × Option Nat) :=
  s.halt.map fun r => (causeCode r.cause, r.pc.toNat, r.opcode.map (·.toNat), r.addr)

/-! ### Ill-formed terms -/

/-- 00E0 is CLS, not SYS (R75). -/
theorem test_sys_0E0_is_ill_formed : ¬ (Instr.sys 0x0E0).WellFormed := by decide
/-- 00EE is RET, not SYS (R75). -/
theorem test_sys_0EE_is_ill_formed : ¬ (Instr.sys 0x0EE).WellFormed := by decide
/-- Their neighbours are SYS (E2, E3). -/
theorem test_sys_neighbours_are_well_formed :
    (Instr.sys 0x0E1).WellFormed ∧ (Instr.sys 0x0EF).WellFormed ∧ (Instr.sys 0x000).WellFormed := by decide

/-! ### Decoding: words written out from the patterns of R75, field by field -/

/-- Rows 1 to 5. -/
theorem test_decode_flow : decode 0b0000_0000_1110_0000#16 = .ok .cls ∧ decode 0b0000_0000_1110_1110#16 = .ok .ret ∧
    decode 0b0000_1111_1111_1111#16 = .ok (.sys 0xFFF) ∧ decode 0b0001_0010_0011_0100#16 = .ok (.jp 0x234) ∧
    decode 0b0010_0011_0000_0000#16 = .ok (.call 0x300) := by decide
/-- Rows 6, 7, 8, 20, 22. -/
theorem test_decode_skips : decode 0b0011_0011_0100_0010#16 = .ok (.seImm 3 0x42) ∧
    decode 0b0100_0011_0100_0010#16 = .ok (.sneImm 3 0x42) ∧ decode 0b0101_0001_0010_0000#16 = .ok (.seReg 1 2) ∧
    decode 0b1001_0001_0010_0000#16 = .ok (.sneReg 1 2) ∧ decode 0b1011_0011_0000_0000#16 = .ok (.jpV0 0x300) := by
  decide
/-- Rows 9 to 14. -/
theorem test_decode_loads_logic : decode 0b0110_1010_0000_0101#16 = .ok (.ldImm 10 5) ∧
    decode 0b0111_0000_0000_0010#16 = .ok (.addImm 0 2) ∧ decode 0b1000_0001_0010_0000#16 = .ok (.ldReg 1 2) ∧
    decode 0b1000_0001_0010_0001#16 = .ok (.orReg 1 2) ∧ decode 0b1000_0001_0010_0010#16 = .ok (.andReg 1 2) ∧
    decode 0b1000_0001_0010_0011#16 = .ok (.xorReg 1 2) := by decide
/-- Rows 15 to 19. -/
theorem test_decode_flagged : decode 0b1000_1010_1011_0100#16 = .ok (.addReg 10 11) ∧
    decode 0b1000_0001_0010_0101#16 = .ok (.subReg 1 2) ∧ decode 0b1000_0001_0010_0110#16 = .ok (.shr 1 2) ∧
    decode 0b1000_0001_0010_0111#16 = .ok (.subnReg 1 2) ∧ decode 0b1000_0001_0010_1110#16 = .ok (.shl 1 2) := by decide
/-- Rows 21, 23, 24, 25, 26. -/
theorem test_decode_index_random_draw_keys : decode 0b1010_0001_0010_0011#16 = .ok (.ldI 0x123) ∧
    decode 0b1100_0011_0000_1111#16 = .ok (.rnd 3 0x0F) ∧ decode 0b1101_0000_0001_0010#16 = .ok (.drw 0 1 2) ∧
    decode 0b1110_0101_1001_1110#16 = .ok (.skp 5) ∧ decode 0b1110_0101_1010_0001#16 = .ok (.sknp 5) := by decide
/-- Rows 27 to 31. -/
theorem test_decode_timers : decode 0b1111_0010_0000_0111#16 = .ok (.ldVxDt 2) ∧
    decode 0b1111_0011_0000_1010#16 = .ok (.ldVxK 3) ∧ decode 0b1111_0001_0001_0101#16 = .ok (.ldDtVx 1) ∧
    decode 0b1111_0001_0001_1000#16 = .ok (.ldStVx 1) ∧ decode 0b1111_0010_0001_1110#16 = .ok (.addI 2) := by decide
/-- Rows 32 to 35. -/
theorem test_decode_memory : decode 0b1111_0100_0010_1001#16 = .ok (.ldF 4) ∧
    decode 0b1111_0000_0011_0011#16 = .ok (.ldB 0) ∧ decode 0b1111_0010_0101_0101#16 = .ok (.ldMemVx 2) ∧
    decode 0b1111_0010_0110_0101#16 = .ok (.ldVxMem 2) := by decide
/-- E4 to E8: the words R76 rejects, next to every accepted neighbour. -/
theorem test_decode_rejects :
    ([0x5121, 0x9121, 0x8008, 0x800F, 0x8AB9, 0xE000, 0xE09F, 0xE0A2, 0xF000, 0xF0FF, 0xF01F, 0xF066].map fun w =>
      decodeTableWord 16 w) = List.replicate 12 none := by decide

/-- S4's own example line, lines of programs P1 to P3, and the omitted Vy of a shift (D30). -/
theorem test_assemble :
    ([("ADD VA,VB", 0x8AB4), ("LD V0, 0x05", 0x6005), ("SE V0, 0x00", 0x3000), ("JP 0x20C", 0x120C)] ++
      [("LD I, 0x300", 0xA300), ("LD B, V0", 0xF033), ("LD V2, [I]", 0xF265), ("DRW V0, V1, 2", 0xD012)] ++
      [("LD F, V0", 0xF029), ("SHR V1", 0x8106), ("LD V3, #2A", 0x632A), ("LD V3, 42", 0x632A)]).all
      (fun p : String × Nat => (assembleText p.1.toList).map (fun i => (encode i).toNat) == some p.2) = true := by decide
/-- Texts that are no line of R77. -/
theorem test_assemble_rejects :
    (["SYS 0x0E0", "LD V3, 256", "JP V1, 0x200", "CLS V0", "FOO", "LD VG, 1", ""].all
      fun l => assembleText l.toList == none) = true := by decide

/-! ### Steps: unknown opcodes, fetch -/

/-- S10: 0FFF is a no-op with status UnknownOpcode. -/
theorem test_sys_is_a_noop : run1 State.reset 0x0FFF = withPc (State.reset.withFetchWord 16 0x0FFF) 0x202 ∧
    stepStatus (State.reset.withFetchWord 16 0x0FFF) = .unknownOpcode 0x0FFF := by decide
/-- E4: 5121 does not skip. -/
theorem test_unknown_opcode_does_not_skip : (run1 (v2 1 5 2 5) 0x5121).pc = 0x202 ∧
    stepStatus ((v2 1 5 2 5).withFetchWord 16 0x5121) = .unknownOpcode 0x5121 := by decide
/-- E9: the high byte is inside memory, the low one is not. -/
theorem test_fetch_at_the_last_byte : halted (afterStep (withPc State.reset 0xFFF)) =
    some (1, 0xFFF, none, some 0x1000) := by decide
/-- E10: PC itself is outside. -/
theorem test_fetch_outside : halted (afterStep (withPc State.reset 0x1000)) =
    some (1, 0x1000, none, some 0x1000) := by decide
/-- E13: an odd PC fetches the bytes there. -/
theorem test_fetch_is_unaligned :
    seen (afterStep (opAt State.reset 0x201 0x60 0x77)) 0 = (0x77, 0, 0x203) := by decide
/-- E14: a halted machine stays as it is. -/
theorem test_step_on_halted : afterStep stopped = stopped ∧ stepStatus stopped = .halted .stackUnderflow := by decide

/-! ### Steps: control flow -/

/-- B7: the popped slot keeps its value. -/
theorem test_ret : (run1 (called 1 0x206) 0x00EE).pc = 0x206 ∧ (run1 (called 1 0x206) 0x00EE).depth = 0 ∧
    (run1 (called 1 0x206) 0x00EE).stack[0]? = some 0x206 := by decide
/-- B6. -/
theorem test_ret_underflow : halted (run1 State.reset 0x00EE) = some (3, 0x200, some 0x00EE, none) := by decide
/-- B1. -/
theorem test_jp : (run1 State.reset 0x1234).pc = 0x234 := by decide
/-- B4: the last slot. -/
theorem test_call : (afterStep (opAt (called 15 0) 0x300 0x24 0x00)).stack[15]? = some 0x302 ∧
    (afterStep (opAt (called 15 0) 0x300 0x24 0x00)).depth = 16 ∧
    (afterStep (opAt (called 15 0) 0x300 0x24 0x00)).pc = 0x400 := by decide
/-- B5. -/
theorem test_call_overflow : halted (afterStep (opAt (called 16 0) 0x300 0x24 0x00)) =
    some (2, 0x300, some 0x2400, none) := by decide
/-- B10. -/
theorem test_seImm : (run1 (v1 3 0x42) 0x3342).pc = 0x204 ∧ (run1 (v1 3 0x42) 0x3343).pc = 0x202 := by decide
/-- B11. -/
theorem test_sneImm : (run1 (v1 3 0x42) 0x4342).pc = 0x202 ∧ (run1 (v1 3 0x42) 0x4300).pc = 0x204 := by decide
/-- B12, B14. -/
theorem test_seReg : (run1 (v2 1 5 2 5) 0x5120).pc = 0x204 ∧ (run1 (v2 1 3 2 1) 0x5120).pc = 0x202 := by decide
/-- B15, B16. -/
theorem test_sneReg : (run1 (v2 1 5 2 6) 0x9120).pc = 0x204 ∧ (run1 (v1 1 5) 0x9110).pc = 0x202 := by decide
/-- B19, B21: V0 is added, whatever x is, and the sum is not masked. -/
theorem test_jpV0 : (run1 (v1 0 0xFF) 0xBFFF).pc = 0x10FE ∧ (run1 (v2 5 0xFF 0 1) 0xB200).pc = 0x201 := by decide

/-! ### Steps: registers and arithmetic -/

/-- A1. -/
theorem test_ldImm : seen (run1 State.reset 0x6A05) 10 = (5, 0, 0x202) := by decide
/-- A3. -/
theorem test_addImm : seen (run1 (v2 0 0xFF 15 1) 0x7002) 0 = (1, 1, 0x202) := by decide
/-- A6. -/
theorem test_ldReg : seen (run1 (v1 2 0x33) 0x8120) 1 = (0x33, 0, 0x202) := by decide
/-- A7. -/
theorem test_orReg : seen (run1 (setV (v2 1 0x0F 2 0xF0) 15 1) 0x8121) 1 = (0xFF, 1, 0x202) := by decide
/-- A8. -/
theorem test_andReg : seen (run1 (v2 1 0x3C 2 0x0F) 0x8122) 1 = (0x0C, 0, 0x202) := by decide
/-- A9. -/
theorem test_xorReg : seen (run1 (v2 1 0xFF 2 0x0F) 0x8123) 1 = (0xF0, 0, 0x202) := by decide
/-- A11. -/
theorem test_addReg_carry : seen (run1 (v2 1 0x80 2 0x80) 0x8124) 1 = (0, 1, 0x202) := by decide
/-- A15, A16: x = F and y = F. -/
theorem test_addReg_flag_register : seen (run1 (v2 15 0x10 1 1) 0x8F14) 15 = (0, 0, 0x202) ∧
    seen (run1 (v2 1 0x10 15 1) 0x81F4) 1 = (0x11, 0, 0x202) := by decide
/-- A18, A19. -/
theorem test_subReg : seen (run1 (v2 1 3 2 5) 0x8125) 1 = (0xFE, 0, 0x202) ∧
    seen (run1 (v2 1 7 2 7) 0x8125) 1 = (0, 1, 0x202) := by decide
/-- A20, A21. -/
theorem test_subReg_flag_register : seen (run1 (v2 15 5 1 3) 0x8F15) 15 = (1, 1, 0x202) ∧
    seen (run1 (v2 1 5 15 1) 0x81F5) 1 = (4, 1, 0x202) := by decide
/-- A24: Vy is ignored. -/
theorem test_shr : seen (run1 (v2 1 4 2 0xFF) 0x8126) 1 = (2, 0, 0x202) := by decide
/-- A25. -/
theorem test_shr_flag_register : seen (run1 (v1 15 3) 0x8F06) 15 = (1, 1, 0x202) := by decide
/-- A27, A28. -/
theorem test_subnReg : seen (run1 (v2 1 3 2 5) 0x8127) 1 = (2, 1, 0x202) ∧
    seen (run1 (v2 1 5 2 3) 0x8127) 1 = (0xFE, 0, 0x202) := by decide
/-- A31, A32. -/
theorem test_shl : seen (run1 (v1 1 0x40) 0x810E) 1 = (0x80, 0, 0x202) ∧
    seen (run1 (v1 1 0x80) 0x810E) 1 = (0, 1, 0x202) := by decide
/-- A35. -/
theorem test_ldI : (run1 (withI State.reset 0xFFFF) 0xA123).i = 0x123 := by decide
/-- A36, A37. -/
theorem test_addI : (run1 (withI (v1 2 1) 0x0FFF) 0xF21E).i = 0x1000 ∧
    (run1 (withI (v1 2 1) 0xFFFF) 0xF21E).i = 0 := by decide
/-- A39, A40: one byte is drawn, also for kk = 0. -/
theorem test_rnd :
    let g : RandomSource := { script := [0xAB, 0xCD], id := 1, drawn := 0 }
    seen (run1 (setRandomSource State.reset g) 0xC30F) 3 = (0x0B, 0, 0x202) ∧
    (run1 (setRandomSource State.reset g) 0xC300).rand.script = [0xCD] := by decide
/-- A41: the free byte ANDed with 0xFF is the free byte, whatever it is. -/
theorem test_rnd_free : exec (.rnd 15 0xFF) State.reset = .next { State.reset with
    v := State.reset.v.set 15 (Config.randByte 0 0 &&& 0xFF), pc := 0x202
    rand := { script := [], id := 0, drawn := 1 } } := rfl

/-! ### Steps: display -/

/-- D1: on a display with a lit pixel. -/
theorem test_cls :
    let s := { State.reset with pixels := setPixel State.reset.pixels 63 31 true, v := State.reset.v.set 15 1 }
    pix s 63 31 = true ∧ (run1 s 0x00E0).pixels = State.reset.pixels ∧ seen (run1 s 0x00E0) 15 = (1, 1, 0x202) := by
  decide
/-- D2: glyph 0 at the origin. -/
theorem test_drw_glyph : lit (run1 State.reset 0xD005) 8 6 =
    [(0, 0), (1, 0), (2, 0), (3, 0), (0, 1), (3, 1), (0, 2), (3, 2), (0, 3), (3, 3)] ++
      [(0, 4), (1, 4), (2, 4), (3, 4)] ∧ seen (run1 State.reset 0xD005) 15 = (0, 0, 0x202) := by decide
/-- D5: wrapping on both axes. D10: a self-overlapping draw on a display 4 pixels wide. -/
theorem test_drw_wraps_and_overlaps :
    let s := run1 (withI (pokeBytes (v2 0 62 1 30) 0x300 [0xF0, 0x90]) 0x300) 0xD012
    let o := run1 (withI (hostApply (pokeBytes State.reset 0x300 [0xFF]) (.resizeDisplay 4 32)).1 0x300) 0xD001
    ([(62, 30), (63, 30), (0, 30), (1, 30), (62, 31), (1, 31)].map fun p : Nat × Nat => pix s p.1 p.2) =
      List.replicate 6 true ∧ (pix s 63 31, pix s 0 31, pix s 2 30) = (false, false, false) ∧
      lit o 4 2 = [] ∧ o.v[(15 : Reg)] = 1 := by decide
/-- D11 to D13. -/
theorem test_ldF : (run1 (v1 4 0x0A) 0xF429).i = 0x032 ∧ (run1 (v1 4 0x1A) 0xF429).i = 0x032 ∧
    (run1 (v1 4 0x0F) 0xF429).i = 0x04B := by decide
/-! ### Steps: memory transfer -/

/-- M5. -/
theorem test_ldB :
    let s := run1 (withI (v1 0 0xFE) 0x300) 0xF033
    (byteAt s 0x300, byteAt s 0x301, byteAt s 0x302, s.i) = (2, 5, 4, 0x300) := by decide
/-- M7: the font region. -/
theorem test_ldB_font : halted (run1 (withI State.reset 0x04E) 0xF033) =
    some (1, 0x200, some 0xF033, some 0x04E) := by decide
/-- M9. -/
theorem test_ldMemVx :
    let s := run1 (withI (setV (v2 0 0x11 1 0x22) 2 0x33) 0x400) 0xF255
    (byteAt s 0x400, byteAt s 0x401, byteAt s 0x402, byteAt s 0x403, s.i) = (0x11, 0x22, 0x33, 0, 0x400) := by decide
/-- M11: no byte is written. -/
theorem test_ldMemVx_fault :
    let s := (withI (v1 0 0x99) 0xFF1).withFetchWord 16 0xFF55
    halted (afterStep s) = some (1, 0x200, some 0xFF55, some 0x1000) ∧ (afterStep s).mem = s.mem := by decide
/-- M13. -/
theorem test_ldVxMem :
    let s := run1 (withI (pokeBytes State.reset 0x300 [2, 5, 4, 9]) 0x300) 0xF265
    (s.v.toList.take 4, s.i) = ([2, 5, 4, 0], 0x300) := by decide
/-- M15. -/
theorem test_ldVxMem_fault :
    let s := run1 (withI (v1 0 0x99) 0x0FFF) 0xF165
    halted s = some (1, 0x200, some 0xF165, some 0x1000) ∧ s.v[(0 : Reg)] = 0x99 := by decide

/-! ### Steps: timers and keypad -/

/-- T1, T2, T4. -/
theorem test_skp : (run1 (setV (pressed [7]) 5 7) 0xE59E).pc = 0x204 ∧ (run1 (setV (pressed []) 5 7) 0xE59E).pc = 0x202 ∧
    (run1 (setV (pressed [3]) 5 0x13) 0xE59E).pc = 0x204 := by decide
/-- T3. -/
theorem test_sknp : (run1 (setV (pressed []) 5 7) 0xE5A1).pc = 0x204 ∧ (run1 (setV (pressed [7]) 5 7) 0xE5A1).pc = 0x202 := by
  decide
/-- T5. -/
theorem test_ldVxDt : seen (run1 { State.reset with dt := 0x3C } 0xF207) 2 = (0x3C, 0, 0x202) := by decide
/-- T7. -/
theorem test_ldVxK : seen (run1 (pressed [3, 7]) 0xF30A) 3 = (3, 0, 0x202) := by decide
/-- T6. -/
theorem test_ldVxK_blocked :
    let s := opAt State.reset 0x220 0xF3 0x0A
    afterStep s = s ∧ stepStatus s = .blocked := by decide
/-- T9. -/
theorem test_ldDtVx : (run1 (v1 1 5) 0xF115).dt = 5 := by decide
/-- T11. -/
theorem test_ldStVx : (run1 (v1 1 0x0A) 0xF118).st = 0x0A ∧ soundOn (run1 (v1 1 0x0A) 0xF118) = true := by decide

/-! ### Host operations -/

/-- T12, T13. -/
theorem test_tickTimers : ((tickTimers State.reset).dt, (tickTimers State.reset).st) = (0, 0) ∧
    ((tickTimers { State.reset with dt := 1, st := 2 }).dt, (tickTimers { State.reset with dt := 1, st := 2 }).st) =
      (0, 1) := by decide
/-- H3: Load on a halted machine changes memory alone. -/
theorem test_load : (hostApply stopped (.load [0x12, 0x00])).1 = { stopped with mem := [(0x200, 0x12)] } ∧
    (hostApply stopped (.load [0x12, 0x00])).2 = .ok := by decide
/-- H5, H6. -/
theorem test_resize : hostApply State.reset (.resizeDisplay 0 32) = (State.reset, .outOfBounds) ∧
    hostApply { State.reset with pixels := setPixel State.reset.pixels 0 0 true } (.resizeDisplay 64 32) =
      (State.reset, .ok) := by decide
/-- H7, H8. -/
theorem test_stackPointer : stackPointer State.reset = 0xFF ∧ stackPointer (called 1 0) = 0 := by decide
/-- H9. -/
theorem test_reset : hostApply (setRandomSource stopped { script := [7], id := 3, drawn := 2 }) .reset =
    (setRandomSource State.reset { script := [7], id := 3, drawn := 2 }, .ok) := by decide

/-! ### Witnesses: states and operands that meet the hypotheses of the statements

`ready` is a machine in the middle of a run: a return address on the stack, a lit pixel, a pressed key, bytes in memory at
both ends of the writable space, and known random bytes. -/

def ready : State :=
  pokeBytes
    { (called 1 0x206) with
      pixels := setPixel State.reset.pixels 63 31 true
      keys := Vector.ofFn fun k => k.val == 7
      i := 0xFFD, dt := 3, st := 2
      rand := { script := [0xAB], id := 1, drawn := 0 } }
    0x300 [0x12, 0x34]

/-- `ready` on the instruction word `op`. -/
def on (op : Nat) : State := ready.withFetchWord 16 op

/-- A witness for `Inv`, used wherever a statement assumes it. -/
theorem witness_Inv : Inv ready where
  config := by decide
  memory := by decide
  font := by decide
  stack := by decide
  depth := by decide
  width := by decide
  height := by decide
  rows := by decide
  columns := by decide
  halted := by
    intro r h
    rw [show ready.halt = none from rfl] at h
    exact nomatch h

/-- The same for a halted machine. -/
theorem witness_Inv_halted : Inv stopped where
  config := by decide
  memory := by decide
  font := by decide
  stack := by decide
  depth := by decide
  width := by decide
  height := by decide
  rows := by decide
  columns := by decide
  halted := by
    intro r h
    obtain rfl : _ = r := Option.some.inj h
    decide

theorem witness_DecodeEncodeRoundTrip : (Instr.sys 0x0E1).WellFormed ∧ (Instr.sys 0xFFF).WellFormed ∧
    (Instr.drw 15 15 15).WellFormed := by decide
theorem witness_EncodeDecodeRoundTrip : decode 0x0FFF#16 = .ok (.sys 0xFFF) ∧ decode 0xFF65#16 = .ok (.ldVxMem 15) := by
  decide
theorem witness_DecodeSelectsTheTableRow :
    decode 0x00EE#16 = .ok .ret ∧ (1 ≤ 2 ∧ 2 ≤ 35) ∧ selectsRow 0x00EE 2 = true ∧ selectsRow 0x00EE 3 = false ∧
    decode 0xFF65#16 = .ok (.ldVxMem 15) ∧ (1 ≤ 35 ∧ 35 ≤ 35) ∧ selectsRow 0xFF65 35 = true ∧
    decode 0x5121#16 = .error (.unknownOpcode 0x5121) ∧ selectsRow 0x5121 8 = false := by decide
theorem witness_UnknownOpcodesAreTheListedOnes :
    ([0x5001, 0x500F, 0x8008, 0x800D, 0x800F, 0x9001, 0xE09D, 0xE0A2, 0xF006, 0xFF66].map fun w => decode w) =
      ([0x5001, 0x500F, 0x8008, 0x800D, 0x800F, 0x9001, 0xE09D, 0xE0A2, 0xF006, 0xFF66].map fun w =>
        .error (.unknownOpcode w)) ∧ decode 0x0FFF = .ok (.sys 0xFFF) := by decide

/-- At the last PC that fetches inside memory, one state for each clause. -/
theorem witness_StepRunsTheDecodedInstruction :
    let s := opAt ready 0xFFE 0x60 0x00
    let u := opAt ready 0xFFE 0x51 0x21
    (Running s ∧ s.pc.toNat + 1 < s.cfg.memSize ∧
      (0x6000 : Word).toNat = (byteAt s s.pc.toNat).toNat * 256 + (byteAt s (s.pc.toNat + 1)).toNat ∧
      decode 0x6000 = .ok (.ldImm 0 0)) ∧
    (Running u ∧ u.pc.toNat + 1 < u.cfg.memSize ∧
      (0x5121 : Word).toNat = (byteAt u u.pc.toNat).toNat * 256 + (byteAt u (u.pc.toNat + 1)).toNat ∧
      decode 0x5121 = .error (.unknownOpcode 0x5121)) := by decide
theorem witness_FetchOutsideMemoryHalts :
    Running (withPc ready 0xFFF) ∧ (withPc ready 0xFFF).cfg.memSize ≤ (withPc ready 0xFFF).pc.toNat + 1 ∧
    Running (withPc ready 0x1000) ∧ (withPc ready 0x1000).cfg.memSize ≤ (withPc ready 0x1000).pc.toNat := by decide
theorem witness_HaltedMachineStaysHalted : ∃ r, stopped.halt = some r := ⟨_, rfl⟩
theorem witness_UnknownOpcodeIsANoOp :
    (Running (on 0x5121) ∧ fetch (on 0x5121) = .ok 0x5121 ∧
      decode 0x5121 = .error (.unknownOpcode 0x5121)) ∧
    (Running (on 0x0FFF) ∧ fetch (on 0x0FFF) = .ok 0x0FFF ∧ decode 0x0FFF = .ok (.sys 0xFFF)) := by decide


/-- One Step for each status: Ok, UnknownOpcode, Blocked, newly Halted, and a Step of a halted machine. -/
theorem witness_StatusSaysWhatChanged :
    (step (on 0x6A05) = .next (afterStep (on 0x6A05)) ∧ stepStatus (on 0x6A05) = .ok) ∧
    (step (on 0x5121) = .next (afterStep (on 0x5121)) ∧ stepStatus (on 0x5121) = .unknownOpcode 0x5121) ∧
    (step ((pressed []).withFetchWord 16 0xF30A) = .next ((pressed []).withFetchWord 16 0xF30A) ∧
      stepStatus ((pressed []).withFetchWord 16 0xF30A) = .blocked) ∧
    (step (on 0xFF55) = .next (afterStep (on 0xFF55)) ∧ stepStatus (on 0xFF55) = .halted .addressFault) ∧
    (step stopped = .next stopped ∧ stepStatus stopped = .halted .stackUnderflow) :=
  ⟨⟨rfl, by decide⟩, ⟨rfl, by decide⟩, ⟨rfl, by decide⟩, ⟨rfl, by decide⟩, ⟨rfl, by decide⟩⟩

/-- Every way to halt: fetch, RET, CALL, Dxyn, Fx65, Fx33 (past memory, and in the font), Fx55 (the same). -/
def haltingStates : List State :=
  [withPc ready 0xFFF, State.reset.withFetchWord 16 0x00EE, (called 16 0).withFetchWord 16 0x2400, on 0xD01F] ++
  [on 0xFF65, (withI ready 0xFFE).withFetchWord 16 0xF033, (withI ready 0x04F).withFetchWord 16 0xF033] ++
  [on 0xFF55, (withI ready 0x04F).withFetchWord 16 0xF155]

/-- Each of them runs, and a Step gives a halt record: the hypotheses of the two statements about a Step that halts. -/
theorem witness_FatalHaltIsPrecise : ∀ s ∈ haltingStates,
    Running s ∧ (afterStep s).halt.isSome = true := by decide
theorem witness_FatalHaltIsPrecise_step : step (withPc ready 0xFFF) = .next (afterStep (withPc ready 0xFFF)) := rfl
/-- The causes and addresses of those nine halts. -/
theorem witness_HaltCausesComeFromTheirInstructions :
    (haltingStates.map fun s => (afterStep s).halt.map fun r => (causeCode r.cause, r.addr)) =
      [some (1, some 0x1000), some (3, none), some (2, none), some (1, some 0x1000)] ++
      [some (1, some 0x1000), some (1, some 0x1000), some (1, some 0x04F), some (1, some 0x1000)] ++
      [some (1, some 0x04F)] := by decide

/-- The successors are taken by each kind of PC move: direct, computed, return, skip, hold and sequential. -/
theorem witness_CompletedInstructionsMovePcByTheirKind : Inv ready ∧
    (∃ t, exec (.jp 0xFFF) ready = .next t ∧ Running t) ∧ (∃ t, exec (.call 0xFFF) ready = .next t ∧ Running t) ∧
    (∃ t, exec (.jpV0 0xFFF) ready = .next t ∧ Running t) ∧ (∃ t, exec .ret ready = .next t ∧ Running t) ∧
    (∃ t, exec (.skp 0) ready = .next t ∧ Running t) ∧ (∃ t, exec (.ldVxK 0) ready = .next t ∧ Running t) ∧
    (∃ t, exec (.ldB 0) ready = .next t ∧ Running t) :=
  ⟨witness_Inv, ⟨_, rfl, rfl⟩, ⟨_, rfl, rfl⟩, ⟨_, rfl, rfl⟩, ⟨_, rfl, rfl⟩, ⟨_, rfl, rfl⟩, ⟨_, rfl, rfl⟩, ⟨_, rfl, rfl⟩⟩

/-- A destination changes, VF changes as a flag and as a collision, and a block load changes its last register. -/
theorem witness_OnlyDestinationsAndFlagsChangeRegisters :
    (∃ t, exec (.ldImm 3 9) ready = .next t ∧ t.v[(3 : Reg)] ≠ ready.v[(3 : Reg)]) ∧
    (∃ t, exec (.subReg 0 0) ready = .next t ∧ t.v[(15 : Reg)] ≠ ready.v[(15 : Reg)]) ∧
    (∃ t, exec (.drw 0 0 1) (setV ready 15 9) = .next t ∧ (setV ready 15 9).halt = none ∧ t.halt = none ∧
      t.v[(15 : Reg)] ≠ (9 : Byte)) ∧
    (∃ t, exec (.ldVxMem 1) (withI ready 0x300) = .next t ∧ t.v[(1 : Reg)] ≠ ready.v[(1 : Reg)]) :=
  ⟨⟨_, rfl, by decide⟩, ⟨_, rfl, by decide⟩, ⟨_, rfl, rfl, rfl, by decide⟩, ⟨_, rfl, by decide⟩⟩

/-- Steps that change I (three ways), the stack and depth, DT, ST, the display (two ways), memory (two ways) and the random
source. -/
theorem witness_OnlyTheListedInstructionsChangeTheRest :
    (step (on 0xA123) = .next (afterStep (on 0xA123))) ∧
    ([(setV ready 0 1).withFetchWord 16 0xF01E, on 0xA123, on 0xF029].map fun s => (afterStep s).i != s.i) =
      [true, true, true] ∧
    (afterStep (on 0x2300)).stack ≠ (on 0x2300).stack ∧ (afterStep (on 0x2300)).depth ≠ (on 0x2300).depth ∧
    (afterStep (on 0x00EE)).depth ≠ (on 0x00EE).depth ∧ (afterStep (on 0xF015)).dt ≠ (on 0xF015).dt ∧
    (afterStep (on 0xF018)).st ≠ (on 0xF018).st ∧ (afterStep (on 0x00E0)).pixels ≠ (on 0x00E0).pixels ∧
    (let s := (withI ready 0x300).withFetchWord 16 0xD002; (afterStep s).pixels ≠ s.pixels) ∧
    (let s := (setV ready 0 9).withFetchWord 16 0xF033; (afterStep s).mem ≠ s.mem) ∧
    (let s := (setV ready 0 9).withFetchWord 16 0xF055; (afterStep s).mem ≠ s.mem) ∧
    (afterStep (on 0xC00F)).rand ≠ (on 0xC00F).rand :=
  ⟨rfl, by decide⟩

theorem witness_StepKeepsTheInvariant : Inv ready ∧ ∃ t, step ready = .next t := ⟨witness_Inv, _, rfl⟩
/-- Valid configurations at the edges of R7, and invalid ones just past them. -/
theorem witness_ConstructionSatisfiesTheInvariant :
    ({ Config.default with memSize := 513, programStart := 512, stackDepth := 1, displayW := 1, displayH := 1 } :
      Config).Valid ∧
    ({ Config.default with memSize := 65536, programStart := 80 } : Config).Valid ∧
    ¬ ({ Config.default with memSize := 512 } : Config).Valid ∧
    ¬ ({ Config.default with memSize := 65537 } : Config).Valid ∧
    ¬ ({ Config.default with programStart := 79 } : Config).Valid ∧
    ¬ ({ Config.default with stackDepth := 0 } : Config).Valid := by decide
theorem witness_SchedulesKeepTheInvariant : Inv ready ∧ Inv stopped := ⟨witness_Inv, witness_Inv_halted⟩
theorem witness_FontIsImmutable : Inv ready ∧ 0 < 80 ∧ 79 < 80 := ⟨witness_Inv, by decide⟩
/-- Two different states that differ in the slot just above `depth`. -/
theorem witness_StaleStackSlotsAreUnobservable :
    let s := on 0x00EE
    let s' := { s with stack := s.stack.set 1 0xFFFF }
    SameButStaleSlots s s' ∧ s ≠ s' ∧ (∃ t, step s = .next t) ∧ ∃ t', step s' = .next t' :=
  ⟨⟨rfl, by decide, by decide⟩, by decide, ⟨_, rfl⟩, ⟨_, rfl⟩⟩
theorem witness_SoundTimerIsWrittenAndNeverRead :
    (∃ t, step (on 0xF018) = .next t) ∧ ∃ t', step { on 0xF018 with st := 0xFF } = .next t' := ⟨⟨_, rfl⟩, ⟨_, rfl⟩⟩
/-- RET at depth 1 and at depth 0. -/
theorem witness_RetReturnsOrUnderflows : ready.depth ≠ 0 ∧ ready.stack[ready.depth - 1]? = some 0x206 ∧
    State.reset.depth = 0 := by decide
/-- CALL with one free slot, and with none. -/
theorem witness_CallPushesTheReturnAddressOrOverflows :
    (called 15 0).depth ≠ (called 15 0).cfg.stackDepth ∧ (called 16 0).depth = (called 16 0).cfg.stackDepth := by decide
theorem witness_CallThenRetReturnsAfterTheCall : (called 15 0).depth < (called 15 0).cfg.stackDepth ∧
    (called 15 0).stack.length = (called 15 0).cfg.stackDepth := by decide
/-- No call left, and sixteen. -/
theorem witness_NestedCallsFillTheStack :
    (called 16 0).depth + ([] : List Addr12).length = (called 16 0).cfg.stackDepth ∧
    State.reset.depth + (List.replicate 16 (0x200 : Addr12)).length = State.reset.cfg.stackDepth := by decide
theorem witness_RandomMasksOneDrawnByte : ready.rand.script = 0xAB :: [] ∧ State.reset.rand.script = [] := by decide
/-- Sprite bytes up to the last byte of memory, and n = 0 with I outside it. -/
theorem witness_DrawXorsTheSpriteAndDetectsCollision : Inv ready ∧ Readable ready ready.i.toNat (3 : Nibble).toNat ∧
    Readable (withI ready 0xFFFF) (withI ready 0xFFFF).i.toNat (0 : Nibble).toNat := ⟨witness_Inv, by decide⟩
/-- Glyph 0 drawn on a dark display; x and y are not VF, so the second draw is at the same place. -/
theorem witness_DrawingTwiceRestoresTheDisplay :
    let s := withI { ready with pixels := State.reset.pixels } 0
    ∃ t, exec (.drw 1 2 5) s = .next t ∧ Readable s s.i.toNat (5 : Nibble).toNat ∧ t.v[(1 : Reg)] = s.v[(1 : Reg)] ∧
      t.v[(2 : Reg)] = s.v[(2 : Reg)] ∧ (∀ px < s.w, ∀ py < s.h, pix s px py = false) ∧
      (∃ px < s.w, ∃ py < s.h, pix t px py = true) :=
  ⟨_, rfl, by decide, rfl, rfl, fun px _ py _ => pixelAt_darkDisplay 64 32 px py, 0, by decide, 0, by decide, by decide⟩
theorem witness_DrawingTwiceRestoresTheDisplay_Inv : Inv (withI { ready with pixels := State.reset.pixels } 0) :=
  { witness_Inv with rows := by decide, columns := by decide }
theorem witness_GlyphAddressPointsAtTheGlyph : Inv ready ∧ 4 < 5 := ⟨witness_Inv, by decide⟩
/-- The last font byte and the first address past memory are refused; their neighbours are not. -/
theorem witness_ByteWriteThenRead :
    (∀ a ∈ [0x050, 0xFFF], a < ready.cfg.memSize ∧ ¬ (ready.cfg.fontBase ≤ a ∧ a < ready.cfg.fontBase + 80)) ∧
    (∀ a ∈ [0x000, 0x04F, 0x1000],
      ¬ (a < ready.cfg.memSize ∧ ¬ (ready.cfg.fontBase ≤ a ∧ a < ready.cfg.fontBase + 80))) ∧
    Memory.wf ready.cfg ready.mem := by decide
/-- The last three writable bytes, and the first three. -/
theorem witness_BcdStoresThreeDigits : Memory.wf ready.cfg ready.mem ∧ Writable ready ready.i.toNat 3 ∧
    Writable (withI ready 0x050) (withI ready 0x050).i.toNat 3 := by decide
theorem witness_BlockStoreWritesV0ToVx : Memory.wf ready.cfg ready.mem ∧
    Writable ready ready.i.toNat ((2 : Reg).val + 1) ∧
    Writable (withI ready 0x050) (withI ready 0x050).i.toNat ((15 : Reg).val + 1) := by decide
theorem witness_BlockLoadReadsV0ToVx : Readable ready ready.i.toNat ((2 : Reg).val + 1) ∧
    Readable (withI ready 0) (withI ready 0).i.toNat ((15 : Reg).val + 1) := by decide
/-- The fourth byte from 0xFFD is the first outside memory; at 0x1000 it is the first of all. -/
theorem witness_ReadsOutsideMemoryHalt :
    (ready.cfg.memSize ≤ ready.i.toNat + 3 ∧ (∀ j < 3, ready.i.toNat + j < ready.cfg.memSize) ∧
      3 < (4 : Nibble).toNat ∧ 3 ≤ (3 : Reg).val) ∧
    (let s := withI ready 0x1000; s.cfg.memSize ≤ s.i.toNat + 0 ∧ ∀ j < 0, s.i.toNat + j < s.cfg.memSize) := by decide
/-- The byte past memory (k = 2 from 0xFFE), and the last font byte (k = 0). -/
theorem witness_RefusedStoresHalt :
    (let s := withI ready 0xFFE;
      (s.cfg.memSize ≤ s.i.toNat + 2 ∨ inFont s.cfg (s.i.toNat + 2) = true) ∧ Writable s s.i.toNat 2 ∧ 2 < 3 ∧
        2 ≤ (2 : Reg).val) ∧
    (let s := withI ready 0x04F;
      (s.cfg.memSize ≤ s.i.toNat + 0 ∨ inFont s.cfg (s.i.toNat + 0) = true) ∧ Writable s s.i.toNat 0) := by decide
/-- The last two bytes of a three-byte block at the end of memory. -/
theorem witness_FetchSeesStoredBytes : Memory.wf ready.cfg ready.mem ∧
    Writable ready ready.i.toNat ((2 : Reg).val + 1) ∧ (∃ t, exec (.ldMemVx 2) ready = .next t) ∧
    (0xFFE : Word).toNat = ready.i.toNat + (1 : Reg).val ∧ (2 : Reg).val = (1 : Reg).val + 1 ∧ (2 : Reg) ≤ 2 :=
  ⟨by decide, by decide, ⟨_, rfl⟩, by decide⟩
/-- V[5] = 0x17 selects key 7, which is pressed; V[5] = 0x10 selects key 0, which is not. -/
theorem witness_KeySkipsTestTheSelectedKey :
    (7 : Reg).val = (setV ready 5 0x17).v[(5 : Reg)].toNat % 16 ∧ ready.keys[(7 : Reg)] = true ∧
    (0 : Reg).val = (setV ready 5 0x10).v[(5 : Reg)].toNat % 16 ∧ ready.keys[(0 : Reg)] = false := by decide
/-- Key 7 alone, and no key; the Step of the second runs Fx0A. -/
theorem witness_KeyWaitTakesTheLowestKeyOrBlocks :
    (ready.keys[(7 : Reg)] = true ∧ ∀ j : Reg, j < 7 → ready.keys[j] = false) ∧
    (∀ k : Reg, ((pressed []).withFetchWord 16 0xF30A).keys[k] = false) ∧
    Decodes ((pressed []).withFetchWord 16 0xF30A) (.ldVxK 3) :=
  ⟨by decide, by decide, rfl, 0xF30A, by decide, by decide⟩
/-- The largest image that fits, and one byte more. -/
theorem witness_LoadCopiesOrIsOutOfBounds : Inv ready ∧
    (List.replicate 3584 (0 : Byte)).length ≤ ready.cfg.memSize - ready.cfg.programStart ∧
    ready.cfg.memSize - ready.cfg.programStart < (List.replicate 3585 (0 : Byte)).length :=
  ⟨witness_Inv, by rw [List.length_replicate]; decide, by rw [List.length_replicate]; decide⟩
theorem witness_SetKeypadWritesEveryKeyAndNoStepWritesAny : ∃ t, step ready = .next t := ⟨_, rfl⟩
/-- A 1 × 1 display with no maximum, one at its maximum, and sizes outside: width 0, and above the maximum. -/
theorem witness_ResizeClearsOrIsOutOfBounds :
    let s := { ready with cfg := { Config.default with displayMaxW := some 128 } }
    (1 ≤ 1 ∧ 1 ≤ 1 ∧ (∀ m, ready.cfg.displayMaxW = some m → 1 ≤ m) ∧ (∀ m, ready.cfg.displayMaxH = some m → 1 ≤ m)) ∧
    (1 ≤ 128 ∧ 1 ≤ 64 ∧ (∀ m, s.cfg.displayMaxW = some m → 128 ≤ m) ∧ (∀ m, s.cfg.displayMaxH = some m → 64 ≤ m)) ∧
    ¬ (1 ≤ 0 ∧ 1 ≤ 32 ∧ (∀ m, s.cfg.displayMaxW = some m → 0 ≤ m) ∧ (∀ m, s.cfg.displayMaxH = some m → 32 ≤ m)) ∧
    ¬ (1 ≤ 129 ∧ 1 ≤ 32 ∧ (∀ m, s.cfg.displayMaxW = some m → 129 ≤ m) ∧ (∀ m, s.cfg.displayMaxH = some m → 32 ≤ m)) := by
  have none_le : ∀ {o : Option Nat} {n : Nat}, o = none → ∀ m, o = some m → n ≤ m := by
    intro o n ho m hm; rw [ho] at hm; exact nomatch hm
  exact ⟨⟨le_rfl, le_rfl, none_le rfl, none_le rfl⟩,
    ⟨by decide, by decide, fun m h => by obtain rfl := Option.some.inj h; exact le_rfl, none_le rfl⟩,
    fun h => absurd h.1 (by decide), fun h => absurd (h.2.2.1 128 rfl) (by decide)⟩
theorem witness_ResetGivesTheConstructionValues : ready.cfg.Valid ∧ stopped.cfg.Valid := by decide
theorem witness_QueryIsAReadOnlySnapshot : State.reset.depth = 0 ∧ ready.depth ≠ 0 ∧ 4095 < ready.cfg.memSize := by
  decide
/-- B2. -/
theorem witness_SelfJumpChangesNothing : EndedBySelfJump (State.reset.withFetchWord 16 0x1200) :=
  ⟨rfl, 0x200, by decide, by decide⟩

end Sys2Proof.Tests
end

namespace Sys2Proof.Machine

/-! ## The machine invariant: every Step and every host operation keeps it (spec/00_scope.md R7, 10_state.md R26 to R34,
20_memory.md R51, 60_exceptions.md R211 and R228)

`StepEffect` says once what a Step of a running machine can do to the state. `Inv` has one lemma per kind of update, and
the invariant and the configuration then follow from the effect alone, with no second walk through the instructions. -/

/-! ### What a Step can do -/

/-- The ways a Step of a running machine changes the state. Fields that no constructor names keep their values. -/
inductive StepEffect (s : State) : State → Prop where
  /-- A fatal halt whose record this state raises (R211). -/
  | raised {r : HaltRecord} (h : HaltConsistent s r) : StepEffect s { s with halt := some r }
  /-- Registers, timers and the random source alone; PC moves or holds. -/
  | registers (v : Vector Byte 16) (i pc : Word) (dt st : Byte) (g : RandomSource) :
      StepEffect s { s with v := v, i := i, pc := pc, dt := dt, st := st, rand := g }
  /-- RET pops a return address (R101). -/
  | pop (pc : Word) (h : s.depth ≠ 0) : StepEffect s { s with pc := pc, depth := s.depth - 1 }
  /-- CALL pushes a return address (R103). -/
  | push (pc ret : Word) (h : s.depth ≠ s.cfg.stackDepth) :
      StepEffect s { s with stack := s.stack.set s.depth ret, depth := s.depth + 1, pc := pc }
  /-- CLS (R160). -/
  | clear (pc : Word) : StepEffect s { s with pixels := darkDisplay s.w s.h, pc := pc }
  /-- DRW XORs a sprite into the buffer (R161). -/
  | draw (v : Vector Byte 16) (vx vy : Nat) (rows : List Byte) (pc : Word) :
      StepEffect s { s with
        pixels := (flipPixels s.pixels (spritePoints s.w s.h vx vy 0 rows)).1, v := v, pc := pc }
  /-- Fx33 and Fx55 store bytes that may be written (R54). -/
  | store (a : Nat) (bytes : List Byte) (pc : Word) (h : Writable s a bytes.length) :
      StepEffect s { s with mem := (pokeBytes s a bytes).mem, pc := pc }

theorem StepEffect.addressFault (s : State) (op : Option Word) (a : Nat) :
    StepEffect s (haltedWith s .addressFault op (some a)) :=
  .raised (by simp [HaltConsistent])

theorem StepEffect.stackOverflow {s : State} (h : s.depth = s.cfg.stackDepth) (nnn : Addr12) :
    StepEffect s (haltedWith s .stackOverflow (some (encode (.call nnn))) none) :=
  .raised (by simpa [HaltConsistent, h] using ⟨nnn, rfl⟩)

theorem StepEffect.stackUnderflow {s : State} (h : s.depth = 0) :
    StepEffect s (haltedWith s .stackUnderflow (some (encode .ret)) none) :=
  .raised (by simp [HaltConsistent, h])

/-- Every instruction answers a state that one of the effects gives: only RET, CALL, CLS, DRW, Fx33 and Fx55 touch more
than registers, timers and the random source. -/
theorem exec_effect (ins : Instr) (s : State) : ∃ t, exec ins s = .next t ∧ StepEffect s t := by
  cases ins with
  | cls => exact ⟨_, rfl, .clear _⟩
  | ret =>
    rcases execRet_cases s with ⟨h, e⟩ | ⟨h, e⟩
    · exact ⟨_, e, .stackUnderflow h⟩
    · exact ⟨_, e, .pop _ h⟩
  | call nnn =>
    rcases execCall_cases nnn s with ⟨h, e⟩ | ⟨h, e⟩
    · exact ⟨_, e, .stackOverflow h nnn⟩
    · exact ⟨_, e, .push _ _ h⟩
  | drw x y n =>
    rcases execDrw_cases x y n s with ⟨-, e⟩ | ⟨k, -, -, -, e⟩
    · exact ⟨_, e.trans (drawRows_eq ..), .draw _ _ _ _ _⟩
    · exact ⟨_, e, .addressFault ..⟩
  | ldVxK x =>
    rcases execLdVxK_cases x s with ⟨-, -, e⟩ | ⟨k, -, -, -, e⟩
    · exact ⟨_, e, .registers s.v s.i s.pc s.dt s.st s.rand⟩
    · exact ⟨_, e, .registers _ _ _ _ _ _⟩
  | ldB x =>
    rcases execLdB_cases x s with ⟨h, e⟩ | ⟨k, -, -, -, e⟩
    · exact ⟨_, e, .store _ _ _ h⟩
    · exact ⟨_, e, .addressFault ..⟩
  | ldMemVx x =>
    rcases execLdMemVx_cases x s with ⟨h, e⟩ | ⟨k, -, -, -, e⟩
    · exact ⟨_, e, .store _ _ _ (by rwa [registersUpTo_length])⟩
    · exact ⟨_, e, .addressFault ..⟩
  | ldVxMem x =>
    rcases execLdVxMem_cases x s with ⟨-, e⟩ | ⟨k, -, -, -, e⟩
    · exact ⟨_, e, .registers _ _ _ _ _ _⟩
    · exact ⟨_, e, .addressFault ..⟩
  | _ => exact ⟨_, rfl, .registers _ _ _ _ _ _⟩

/-- A Step leaves a halted machine as it is and gives a running one an effect (R215, R216). -/
theorem step_effect {s t : State} (h : step s = .next t) : t = s ∨ (Running s ∧ StepEffect s t) := by
  have answers : ∀ {u : State}, step s = .next u → u = t := fun e => Host.Outcome.next.inj (e.symm.trans h)
  rcases step_cases s with ⟨-, e⟩ | ⟨hr, a, -, e⟩ | ⟨hr, op, ins, -, -, e⟩ | ⟨hr, op, er, -, -, e⟩
  · exact .inl (answers e).symm
  · exact .inr ⟨hr, answers e ▸ .addressFault s none a⟩
  · obtain ⟨u, hu, effect⟩ := exec_effect ins s
    exact .inr ⟨hr, answers (e.trans hu) ▸ effect⟩
  · exact .inr ⟨hr, answers e ▸ .registers s.v s.i (s.pc + 2) s.dt s.st s.rand⟩

/-- No Step writes the configuration (log entry 1). -/
theorem step_cfg {s t : State} (h : step s = .next t) : t.cfg = s.cfg := by
  rcases step_effect h with rfl | ⟨-, effect⟩
  · rfl
  · cases effect <;> rfl

/-! ### The invariant under each kind of update -/

/-- The invariant does not read V, I, the timers, the keys or the random source. -/
theorem Inv.withFreeFields {s : State} (h : Inv s) (v : Vector Byte 16) (i : Word) (dt st : Byte)
    (keys : Vector Bool 16) (g : RandomSource) :
    Inv { s with v := v, i := i, dt := dt, st := st, keys := keys, rand := g } :=
  ⟨h.config, h.memory, h.font, h.stack, h.depth, h.width, h.height, h.rows, h.columns, h.halted⟩

/-- PC is bound by the halt record alone. -/
theorem Inv.withPc {s : State} (h : Inv s) (hr : Running s) (pc : Word) : Inv { s with pc := pc } :=
  ⟨h.config, h.memory, h.font, h.stack, h.depth, h.width, h.height, h.rows, h.columns, by simp [hr]⟩

theorem Inv.withHalt {s : State} (h : Inv s) {r : HaltRecord} (hc : HaltConsistent s r) :
    Inv { s with halt := some r } :=
  ⟨h.config, h.memory, h.font, h.stack, h.depth, h.width, h.height, h.rows, h.columns,
    fun _ e => Option.some.inj e ▸ hc⟩

theorem Inv.withStack {s : State} (h : Inv s) (hr : Running s) {stack : List Word} {depth : Nat}
    (hs : stack.length = s.stack.length) (hd : depth ≤ s.cfg.stackDepth) :
    Inv { s with stack := stack, depth := depth } :=
  ⟨h.config, h.memory, h.font, hs.trans h.stack, hd, h.width, h.height, h.rows, h.columns, by simp [hr]⟩

theorem Inv.withDisplay {s : State} (h : Inv s) {w height : Nat} {d : Display} (hw : 1 ≤ w) (hh : 1 ≤ height)
    (hd : Shaped d w height) : Inv { s with w := w, h := height, pixels := d } :=
  ⟨h.config, h.memory, h.font, h.stack, h.depth, hw, hh, hd.1, hd.2, h.halted⟩

theorem Inv.shaped {s : State} (h : Inv s) : Shaped s.pixels s.w s.h := ⟨h.rows, h.columns⟩

/-- A byte stored inside memory and outside the font region leaves the font as it was (R51, R54). -/
theorem Inv.pokeByte {s : State} (h : Inv s) {a : Nat} (ha : a < s.cfg.memSize) (hf : inFont s.cfg a = false)
    (b : Byte) : Inv (pokeByte s a b) := by
  refine ⟨h.config, put_wf h.memory ha b, fun k hk => ?_, h.stack, h.depth, h.width, h.height, h.rows, h.columns,
    h.halted⟩
  have outside : s.cfg.fontBase + k ≠ a := by
    rintro rfl
    simp [inFont, hk] at hf
  rw [pokeByte_cfg, byteAt_pokeByte h.memory, if_neg outside, h.font k hk]

/-- Bytes stored where an instruction may write keep the invariant. -/
theorem Inv.pokeBytes {s : State} (h : Inv s) {a : Nat} {bytes : List Byte} (hw : Writable s a bytes.length) :
    Inv (pokeBytes s a bytes) := by
  induction bytes generalizing s a with
  | nil => exact h
  | cons b bytes ih =>
    obtain ⟨ha, hf⟩ := hw 0 (by simp)
    refine ih (h.pokeByte ha hf b) fun k hk => ?_
    rw [pokeByte_cfg, show a + 1 + k = a + (k + 1) by omega]
    exact hw (k + 1) (by simpa using hk)

theorem Inv.effect {s t : State} (h : Inv s) (hr : Running s) (effect : StepEffect s t) : Inv t := by
  cases effect with
  | raised hc => exact h.withHalt hc
  | registers v i pc dt st g => exact (h.withPc hr pc).withFreeFields v i dt st s.keys g
  | pop pc hd => exact (h.withStack hr rfl ((Nat.sub_le _ 1).trans h.depth)).withPc hr pc
  | push pc ret hd => exact (h.withStack hr List.length_set (lt_of_le_of_ne h.depth hd)).withPc hr pc
  | clear pc => exact (h.withDisplay h.width h.height (darkDisplay_shaped s.w s.h)).withPc hr pc
  | draw v vx vy rows pc =>
    have inside := spritePoints_inside h.width h.height vx vy 0 rows
    have drawn := h.withDisplay h.width h.height (flipPixels_spec h.shaped inside).1
    exact (drawn.withPc hr pc).withFreeFields v s.i s.dt s.st s.keys s.rand
  | store a bytes pc hw =>
    have stored := h.pokeBytes hw
    rw [pokeBytes_frame] at stored
    exact stored.withPc hr pc

/-! ### Steps -/

theorem step_keepsInv {s t : State} (h : Inv s) (hs : step s = .next t) : Inv t := by
  rcases step_effect hs with rfl | ⟨hr, effect⟩
  · exact h
  · exact h.effect hr effect

/-- Settles O17: the effect of a Step decides which part of the invariant is at stake. -/
theorem stepKeepsTheInvariant : Obligations.StepKeepsTheInvariant :=
  fun _ _ => step_keepsInv

/-! ### Construction -/

/-- Memory after construction holds `FONT_DATA` in the font region (R250). -/
theorem byteAt_construct_font (c : Config) (g : RandomSource) {k : Nat} (hk : k < 80) :
    byteAt (State.construct c g) (c.fontBase + k) = c.fontData.getD k 0 := by
  simp [byteAt, State.construct, Memory.read, Memory.lookup, background, inFont, hk]

theorem construct_inv {c : Config} (hc : c.Valid) (g : RandomSource) : Inv (State.construct c g) := by
  have ⟨_, _, _, _, hw, hh, _, _⟩ := hc
  have dark : Shaped (State.construct c g).pixels c.displayW c.displayH := darkDisplay_shaped c.displayW c.displayH
  exact
    { config := hc
      memory := ⟨.nil, by simp [State.construct]⟩
      font := fun _ => byteAt_construct_font c g
      stack := List.length_replicate
      depth := Nat.zero_le _
      width := hw
      height := hh
      rows := dark.1
      columns := dark.2
      halted := fun _ e => nomatch e }

/-- Settles O19: `build` tests R7's conditions, and they are what the invariant of a new machine needs. -/
theorem constructionSatisfiesTheInvariant : Obligations.ConstructionSatisfiesTheInvariant :=
  fun _ => ⟨fun hc => ⟨⟨_, if_pos hc⟩, construct_inv hc⟩, fun hc => if_neg hc⟩

theorem default_valid : Config.default.Valid := by decide

/-- Settles O18: the default configuration is one of O19's valid ones. -/
theorem resetSatisfiesTheInvariant : Obligations.ResetSatisfiesTheInvariant :=
  ⟨default_valid, construct_inv default_valid .hostDefault⟩

/-! ### Host operations -/

/-- The program region lies above the font (R7), so Load may write all of it. -/
theorem Inv.programRegion_writable {s : State} (h : Inv s) {n : Nat} (hn : n ≤ s.cfg.memSize - s.cfg.programStart) :
    Writable s s.cfg.programStart n := by
  obtain ⟨hfont, hstart, -, -, -, -, hglyph, -⟩ := h.config
  intro k hk
  refine ⟨by omega, ?_⟩
  simp only [inFont, Bool.and_eq_false_imp, decide_eq_true_eq, decide_eq_false_iff_not]
  omega

/-- Load stores what fits in the program region and answers nothing else (R222). -/
theorem loadProgram_eq_some {s t : State} {bytes : List Byte} (hl : loadProgram s bytes = some t) :
    bytes.length ≤ s.cfg.memSize - s.cfg.programStart ∧ t = pokeBytes s s.cfg.programStart bytes := by
  obtain ⟨fits, e⟩ := Option.ite_none_left_eq_some.1 hl
  exact ⟨not_lt.1 fits, (Option.some.inj e).symm⟩

/-- ResizeDisplay answers a dark buffer of the new size, with at least one pixel (R226). -/
theorem resizeDisplay_eq_some {s t : State} {w height : Nat} (hz : resizeDisplay s w height = some t) :
    1 ≤ w ∧ 1 ≤ height ∧ t = { s with w := w, h := height, pixels := darkDisplay w height } := by
  obtain ⟨size, e⟩ := Option.ite_none_left_eq_some.1 hz
  simp only [Bool.or_eq_true, decide_eq_true_eq, not_or, not_lt] at size
  obtain ⟨⟨⟨hw, hh⟩, -⟩, -⟩ := size
  exact ⟨hw, hh, (Option.some.inj e).symm⟩

theorem loadProgram_keepsInv {s t : State} (h : Inv s) {bytes : List Byte} (hl : loadProgram s bytes = some t) :
    Inv t := by
  obtain ⟨fits, rfl⟩ := loadProgram_eq_some hl
  exact h.pokeBytes (h.programRegion_writable fits)

theorem resizeDisplay_keepsInv {s t : State} (h : Inv s) {w height : Nat} (hz : resizeDisplay s w height = some t) :
    Inv t := by
  obtain ⟨hw, hh, rfl⟩ := resizeDisplay_eq_some hz
  exact h.withDisplay hw hh (darkDisplay_shaped w height)

/-- What holds of the state and of the state an operation answers holds after it, in range or not (R210). -/
theorem orOutOfBounds_of {P : State → Prop} {s : State} {answer : Option State} (hs : P s)
    (ht : ∀ t, answer = some t → P t) : P (orOutOfBounds s answer).1 := by
  cases answer with
  | none => exact hs
  | some t => exact ht t rfl

theorem step_afterStep (s : State) : step s = .next (afterStep s) := by
  rcases step_cases s with ⟨-, e⟩ | ⟨-, _, -, e⟩ | ⟨-, _, ins, -, -, e⟩ | ⟨-, _, _, -, -, e⟩
  case inr.inr.inl =>
    obtain ⟨t, ht, -⟩ := exec_effect ins s
    simp [afterStep, e, ht]
  all_goals simp [afterStep, e]

theorem hostApply_keepsInv {s : State} (h : Inv s) (op : HostOp) : Inv (hostApply s op).1 := by
  cases op with
  | load bytes => exact orOutOfBounds_of h fun _ => loadProgram_keepsInv h
  | step => exact step_keepsInv h (step_afterStep s)
  | tickTimers => exact h.withFreeFields s.v s.i _ _ s.keys s.rand
  | setKeypad keys => exact h.withFreeFields s.v s.i s.dt s.st keys s.rand
  | setRandomSource g => exact h.withFreeFields s.v s.i s.dt s.st s.keys g
  | query => exact h
  | resizeDisplay w height => exact orOutOfBounds_of h fun _ => resizeDisplay_keepsInv h
  | reset => exact construct_inv h.config s.rand

/-- No host operation writes the configuration (log entry 1). -/
theorem hostApply_cfg (s : State) (op : HostOp) : (hostApply s op).1.cfg = s.cfg := by
  cases op with
  | load bytes =>
    refine orOutOfBounds_of (P := fun t => t.cfg = s.cfg) rfl fun t hl => ?_
    obtain ⟨-, rfl⟩ := loadProgram_eq_some hl
    exact pokeBytes_cfg ..
  | step => exact step_cfg (step_afterStep s)
  | resizeDisplay w height =>
    refine orOutOfBounds_of (P := fun t => t.cfg = s.cfg) rfl fun t hz => ?_
    obtain ⟨-, -, rfl⟩ := resizeDisplay_eq_some hz
    rfl
  | _ => rfl

/-- What every host operation keeps, every schedule keeps (R228). -/
theorem runSchedule_keeps {P : State → Prop} (hstep : ∀ s op, P s → P (hostApply s op).1) (ops : List HostOp)
    {s : State} (h : P s) : P (runSchedule s ops) := by
  induction ops generalizing s with
  | nil => exact h
  | cons op ops ih => exact ih (hstep s op h)

theorem runSchedule_inv (ops : List HostOp) {s : State} (h : Inv s) : Inv (runSchedule s ops) :=
  runSchedule_keeps (P := Inv) (fun _ op hs => hostApply_keepsInv hs op) ops h

theorem runSchedule_cfg (ops : List HostOp) (s : State) : (runSchedule s ops).cfg = s.cfg :=
  runSchedule_keeps (P := fun t => t.cfg = s.cfg) (fun t op ht => (hostApply_cfg t op).trans ht) ops rfl

/-- Settles O21: the invariant says what the font region reads as, and it and the configuration last over the
schedule. -/
theorem fontIsImmutable : Obligations.FontIsImmutable := by
  intro ops s h
  have hcfg := runSchedule_cfg ops s
  refine ⟨hcfg, fun k hk => ?_⟩
  have after := (runSchedule_inv ops h).font k hk
  rw [hcfg] at after
  rw [after, h.font k hk]

end Sys2Proof.Machine

namespace Sys2Proof.Machine

/-! ## What each instruction reads and changes (spec/10_state.md R20 to R37)

`AnswersAlike` says what becomes of a change to a dead stack slot or to ST: noninterference of both follows. `Completes`
says for each instruction what the state is after it when it raises nothing: how PC moves, and which instruction may write
a register or another piece of the state, are then read off. -/

/-! ### Dead stack slots and ST are not read (R26, R30) -/

/-- The stacks agree in the slots below `depth`, the ones RET can still pop (R26). -/
structure SameLiveSlots (depth : Nat) (stack other : List Word) : Prop where
  length : other.length = stack.length
  live : ∀ j < depth, other[j]? = stack[j]?

theorem SameLiveSlots.pop {depth : Nat} {stack other : List Word} (h : SameLiveSlots depth stack other) :
    SameLiveSlots (depth - 1) stack other :=
  ⟨h.length, fun j hj => h.live j (by omega)⟩

theorem SameLiveSlots.top {depth : Nat} {stack other : List Word} (h : SameLiveSlots depth stack other)
    (hd : depth ≠ 0) : other.getD (depth - 1) 0 = stack.getD (depth - 1) 0 := by
  rw [List.getD_eq_getElem?_getD, h.live _ (by omega), ← List.getD_eq_getElem?_getD]

theorem SameLiveSlots.push {depth : Nat} {stack other : List Word} (h : SameLiveSlots depth stack other) (ret : Word) :
    SameLiveSlots (depth + 1) (stack.set depth ret) (other.set depth ret) := by
  refine ⟨by simp [h.length], fun j hj => ?_⟩
  rcases eq_or_ne depth j with rfl | hne
  · simp [List.getElem?_set, h.length]
  · rw [List.getElem?_set_ne hne, List.getElem?_set_ne hne, h.live j (by omega)]

/-- `s` with other stack contents and another ST. -/
abbrev withStackSt (s : State) (stack : List Word) (st : Byte) : State := { s with stack := stack, st := st }

/-- The answer `a` from `s` and the answer `a'` from `s` with stack `stack` and sound timer `st` are states that again
differ at most in dead stack slots and in ST, and in neither where the two states before did not. -/
def AnswersAlike (s : State) (stack : List Word) (st : Byte) (a a' : Result) : Prop :=
  ∃ (t : State) (stack' : List Word) (st' : Byte), a = .next t ∧ a' = .next (withStackSt t stack' st') ∧
    SameLiveSlots t.depth t.stack stack' ∧ (stack = s.stack → stack' = t.stack) ∧ (st = s.st → st' = t.st)

section
variable {s : State} {stack : List Word} (live : SameLiveSlots s.depth s.stack stack) (st : Byte)
include live

/-- An answer that keeps the stack, depth and ST, whatever they hold. -/
theorem AnswersAlike.of_kept {a a' : Result} {t : State} (ha : a = .next t) (ha' : a' = .next (withStackSt t stack st))
    (hs : t.stack = s.stack) (hd : t.depth = s.depth) (ht : t.st = s.st) : AnswersAlike s stack st a a' :=
  ⟨t, stack, st, ha, ha', by rwa [hs, hd], fun e => e.trans hs.symm, fun e => e.trans ht.symm⟩

/-- A reading instruction that goes on with the bytes alike answers alike: reading looks at memory alone. -/
theorem AnswersAlike.read (ins : Instr) (a n : Nat) {go go' : List Byte → Result}
    (hgo : ∀ bytes, AnswersAlike s stack st (go bytes) (go' bytes)) :
    AnswersAlike s stack st (withAccess ins s (readBytes s a n) go)
      (withAccess ins (withStackSt s stack st) (readBytes (withStackSt s stack st) a n) go') := by
  rw [readBytes_congr (s := withStackSt s stack st) (t := s) rfl rfl]
  cases readBytes s a n with
  | error e => exact .of_kept live st rfl rfl rfl rfl rfl
  | ok bytes => exact hgo bytes

/-- A storing instruction answers alike: which addresses may be written depends on the configuration alone. -/
theorem AnswersAlike.store (ins : Instr) (a : Nat) (bytes : List Byte) :
    AnswersAlike s stack st (withAccess ins s (writeBytes s a bytes) advance)
      (withAccess ins (withStackSt s stack st) (writeBytes (withStackSt s stack st) a bytes) advance) := by
  rcases writeBytes_cases s a bytes with ⟨hw, e⟩ | ⟨k, hk, hbad, hgood, e⟩
  · rw [e, writeBytes_ok (s := withStackSt s stack st) hw, withAccess_ok, withAccess_ok, advance_eq, advance_eq,
      pokeBytes_frame s, pokeBytes_frame (withStackSt s stack st),
      pokeBytes_mem_congr (s := withStackSt s stack st) (t := s) rfl rfl]
    exact .of_kept live st rfl rfl rfl rfl rfl
  · rw [e, writeBytes_error (s := withStackSt s stack st) hk hbad hgood]
    exact .of_kept live st rfl rfl rfl rfl rfl

/-- RET reads a live slot, CALL writes the slot at `depth` without reading one, Fx18 overwrites ST, and no other
instruction meets the stack or ST. -/
theorem exec_answersAlike (ins : Instr) :
    AnswersAlike s stack st (exec ins s) (exec ins (withStackSt s stack st)) := by
  cases ins with
  | ret =>
    by_cases hd : s.depth = 0
    · exact .of_kept live st (if_pos hd) (if_pos hd) rfl rfl rfl
    · refine ⟨_, stack, st, if_neg hd, (if_neg hd).trans ?_, live.pop, id, id⟩
      rw [jumpTo_eq, live.top hd]
  | call nnn =>
    by_cases hd : s.depth = s.cfg.stackDepth
    · exact .of_kept live st (if_pos hd) (if_pos hd) rfl rfl rfl
    · exact ⟨_, stack.set s.depth (s.pc + 2), st, if_neg hd, if_neg hd, live.push _, fun e => e ▸ rfl, id⟩
  | ldStVx x => exact ⟨_, stack, s.v[x], rfl, rfl, live, id, fun _ => rfl⟩
  | ldVxK x =>
    show AnswersAlike s stack st (execLdVxK x s) (execLdVxK x (withStackSt s stack st))
    have same : leastKey (withStackSt s stack st) = leastKey s := rfl
    unfold execLdVxK
    rw [same]
    cases leastKey s <;> exact .of_kept live st rfl rfl rfl rfl rfl
  | drw x y n => exact .read live st _ _ _ fun rows => .of_kept live st rfl rfl rfl rfl rfl
  | ldVxMem x => exact .read live st _ _ _ fun bytes => .of_kept live st rfl rfl rfl rfl rfl
  | ldB x => exact .store live st _ _ _
  | ldMemVx x => exact .store live st _ _ _
  | _ => exact .of_kept live st rfl rfl rfl rfl rfl

/-- A Step answers alike: its fetch reads PC and memory, and its instruction answers alike. -/
theorem step_answersAlike : AnswersAlike s stack st (step s) (step (withStackSt s stack st)) := by
  rcases step_cases s with ⟨⟨r, hr⟩, e⟩ | ⟨hr, a, hf, e⟩ | ⟨hr, op, ins, hf, hd, e⟩ | ⟨hr, op, er, hf, hd, e⟩
  · exact .of_kept live st e (step_of_halted hr) rfl rfl rfl
  · exact .of_kept live st e (step_of_fetch_error hr hf) rfl rfl rfl
  · rw [e, step_of_fetch (s := withStackSt s stack st) hr hf, runOpcode_of_decode hd]
    exact exec_answersAlike live st ins
  · have e' := (step_of_fetch (s := withStackSt s stack st) hr hf).trans (runOpcode_of_unknown hd _)
    exact .of_kept live st e e' rfl rfl rfl

end

/-- Settles O22: with ST the same, alike answers differ in dead slots alone. -/
theorem staleStackSlotsAreUnobservable : Obligations.StaleStackSlotsAreUnobservable := by
  rintro s s' t t' ⟨rest, hlen, hlive⟩ hs hs'
  obtain ⟨u, stack', st', e, e', live, -, hst⟩ := step_answersAlike ⟨hlen, hlive⟩ s.st
  obtain rfl : t = u := Host.Outcome.next.inj (hs.symm.trans e)
  obtain rfl : t' = withStackSt t stack' st' := by
    rw [rest] at hs'
    exact Host.Outcome.next.inj (hs'.symm.trans e')
  exact ⟨by rw [hst rfl], live.length, live.live⟩

/-- Settles O23: with the stack the same, alike answers differ in ST alone. The other three parts are
the equations of Fx18, TickTimers and Query. -/
theorem soundTimerIsWrittenAndNeverRead : Obligations.SoundTimerIsWrittenAndNeverRead := by
  refine ⟨fun s t t' b hs hs' => ?_, fun s x => rfl, fun s => ?_, fun s => rfl⟩
  · obtain ⟨u, stack', st', e, e', -, hstack, -⟩ := step_answersAlike (s := s) ⟨rfl, fun _ _ => rfl⟩ b
    obtain rfl : t = u := Host.Outcome.next.inj (hs.symm.trans e)
    obtain rfl : t' = withStackSt t stack' st' := Host.Outcome.next.inj (hs'.symm.trans e')
    rw [hstack rfl]
  · show (if s.st = 0 then s.st else s.st - 1).toNat = s.st.toNat - 1
    split
    · next h => rw [h]; rfl
    · next h => bv_omega

/-! ### The state after an instruction that raises nothing -/

/-- What `t` is after an instruction on `s` that raises nothing: which pieces of `s` it replaces and, but for the buffer of
DRW, the memory of a store and the bytes of a load, by what. An instruction with no case of its own has the one outcome
that `exec` computes. -/
def Completes (s t : State) : Instr → Prop
  | .ret => s.depth ≠ 0 ∧ t = { s with pc := s.stack.getD (s.depth - 1) 0, depth := s.depth - 1 }
  | .call nnn => s.depth ≠ s.cfg.stackDepth ∧ t = { s with
      stack := s.stack.set s.depth (s.pc + 2), depth := s.depth + 1, pc := zextAddr nnn }
  | .drw _ _ _ => ∃ (d : Display) (hit : Bool),
      t = { s with pixels := d, v := s.v.set 15 (flagByte hit), pc := s.pc + 2 }
  | .ldVxK x => t = s ∨ ∃ b : Byte, t = { s with v := s.v.set x b, pc := s.pc + 2 }
  | .ldB _ | .ldMemVx _ => ∃ m : Memory, t = { s with mem := m, pc := s.pc + 2 }
  | .ldVxMem x => ∃ bytes : List Byte, bytes.length = x.val + 1 ∧
      t = { s with v := loadRegisters s.v 0 bytes, pc := s.pc + 2 }
  | ins => exec ins s = .next t

/-- An instruction raises, and then the halt record is all that changes, or it completes. -/
theorem exec_raised_or_completes {s t : State} {ins : Instr} (h : exec ins s = .next t) :
    (∃ r, RaisedBy s r ins ∧ t = { s with halt := some r }) ∨ Completes s t ins := by
  have answer : ∀ {u : State}, exec ins s = .next u → t = u := fun e => Host.Outcome.next.inj (h.symm.trans e)
  cases ins with
  | ret =>
    rcases execRet_cases s with ⟨hd, e⟩ | ⟨hd, e⟩
    · exact .inl ⟨_, ⟨hd, rfl⟩, answer e⟩
    · exact .inr ⟨hd, answer e⟩
  | call nnn =>
    rcases execCall_cases nnn s with ⟨hd, e⟩ | ⟨hd, e⟩
    · exact .inl ⟨_, ⟨hd, rfl⟩, answer e⟩
    · exact .inr ⟨hd, answer e⟩
  | drw x y n =>
    rcases execDrw_cases x y n s with ⟨-, e⟩ | ⟨k, hk, hb, -, e⟩
    · exact .inr ⟨_, _, answer e⟩
    · exact .inl ⟨_, ⟨k, hk, hb, rfl⟩, answer e⟩
  | ldVxK x =>
    rcases execLdVxK_cases x s with ⟨-, -, e⟩ | ⟨k, -, -, -, e⟩
    · exact .inr (.inl (answer e))
    · exact .inr (.inr ⟨_, answer e⟩)
  | ldB x =>
    rcases execLdB_cases x s with ⟨-, e⟩ | ⟨k, hk, hb, -, e⟩
    · exact .inr ⟨_, answer e⟩
    · exact .inl ⟨_, ⟨k, hk, hb, rfl⟩, answer e⟩
  | ldMemVx x =>
    rcases execLdMemVx_cases x s with ⟨-, e⟩ | ⟨k, hk, hb, -, e⟩
    · exact .inr ⟨_, answer e⟩
    · exact .inl ⟨_, ⟨k, hk, hb, rfl⟩, answer e⟩
  | ldVxMem x =>
    rcases execLdVxMem_cases x s with ⟨-, e⟩ | ⟨k, hk, hb, -, e⟩
    · exact .inr ⟨_, by simp, answer e⟩
    · exact .inl ⟨_, ⟨k, hk, hb, rfl⟩, answer e⟩
  | _ => exact .inr h

/-! ### How PC moves (R24) -/

@[simp] theorem zextAddr_toNat (nnn : Addr12) : (zextAddr nnn).toNat = nnn.toNat :=
  BitVec.toNat_setWidth_of_le (by omega)

@[simp] theorem zextByte_toNat (b : Byte) : (zextByte b).toNat = b.toNat :=
  BitVec.toNat_setWidth_of_le (by omega)

/-- Settles O14: a raised instruction leaves no running machine, and `Completes` names the new PC. That RET finds its slot
and that `nnn + V0` stays below 2^16 is arithmetic. -/
theorem completedInstructionsMovePcByTheirKind : Obligations.CompletedInstructionsMovePcByTheirKind := by
  intro s t i hinv h ht
  rcases exec_raised_or_completes h with ⟨r, -, rfl⟩ | hc
  · exact nomatch ht
  cases i with
  | jp nnn => cases hc; exact zextAddr_toNat nnn
  | call nnn => obtain ⟨-, rfl⟩ := hc; exact zextAddr_toNat nnn
  | jpV0 nnn =>
    cases hc
    have := nnn.isLt
    have := s.v[(0 : Reg)].isLt
    show (zextAddr nnn + zextByte s.v[(0 : Reg)]).toNat = _
    rw [BitVec.toNat_add, zextAddr_toNat, zextByte_toNat, Nat.mod_eq_of_lt (by omega)]
  | ret =>
    obtain ⟨hd, rfl⟩ := hc
    have inside : s.depth - 1 < s.stack.length := by have := hinv.stack; have := hinv.depth; omega
    simp [List.getD_eq_getElem?_getD, inside]
  | seImm | sneImm | seReg | sneReg | skp | sknp => cases hc; exact ite_eq_or_eq ..
  | ldVxK x =>
    rcases hc with rfl | ⟨b, rfl⟩
    · exact .inr rfl
    · exact .inl rfl
  | drw => obtain ⟨d, hit, rfl⟩ := hc; rfl
  | ldB | ldMemVx => obtain ⟨m, rfl⟩ := hc; rfl
  | ldVxMem => obtain ⟨bytes, -, rfl⟩ := hc; rfl
  | _ => cases hc; rfl

/-! ### Which instruction writes a register (R20, R21) -/

/-- A register write changes the register written alone. -/
theorem eq_of_getElem_set_ne {v : Vector Byte 16} {x k : Reg} {b : Byte} (h : (v.set x b)[k] ≠ v[k]) : k = x := by
  by_contra hne
  exact h (by rw [getElem_set_reg, if_neg hne])

/-- Only the result register and VF change when a result and a flag are written. -/
theorem eq_or_eq_of_setWithFlag_ne {s : State} {x k : Reg} {r f : Byte} (h : (setWithFlag s x r f).v[k] ≠ s.v[k]) :
    k = x ∨ k = 15 := by
  by_contra hne
  obtain ⟨hx, hf⟩ := not_or.1 hne
  exact h (by rw [setWithFlag_getElem, if_neg hf, if_neg hx])

theorem setWithFlag_flag (s : State) (x : Reg) (r f : Byte) : (setWithFlag s x r f).v[(15 : Reg)] = f := by
  rw [setWithFlag_getElem, if_pos rfl]

/-- A flag is 0 or 1. -/
theorem flagByte_bit (b : Bool) : flagByte b = 0 ∨ flagByte b = 1 := by cases b <;> decide

/-- The lowest bit of a byte is 0 or 1. -/
theorem and_one_bit (a : Byte) : a &&& 1 = 0 ∨ a &&& 1 = 1 := by
  have h : a &&& 1 = (BitVec.ofBool (a.getLsbD 0)).setWidth 8 := BitVec.and_one_eq_setWidth_ofBool_getLsbD
  rw [h]
  cases a.getLsbD 0 <;> decide

/-- A block load of `n` registers changes none from number `n` up (R182). -/
theorem lt_length_of_loadRegisters_ne {v : Vector Byte 16} {bytes : List Byte} {k : Reg}
    (h : (loadRegisters v 0 bytes)[k] ≠ v[k]) : k.val < bytes.length := by
  by_contra hle
  exact h (by rw [loadRegisters_getElem, if_neg (by omega)])

/-- Settles O15: a raised instruction changes no register, and a completed one leaves a register file that is the old one, a
register write, a write with flag, or a block load. -/
theorem onlyDestinationsAndFlagsChangeRegisters : Obligations.OnlyDestinationsAndFlagsChangeRegisters := by
  intro s t i k h
  rcases exec_raised_or_completes h with ⟨r, hr, rfl⟩ | hc
  · refine ⟨fun hne => absurd rfl hne, ?_⟩
    cases i with
    | drw => exact fun _ ht => nomatch ht
    | addReg | subReg | shr | subnReg | shl => exact hr.elim
    | _ => trivial
  cases i with
  | ldImm | addImm | ldReg | orReg | andReg | xorReg | rnd | ldVxDt =>
    cases hc; exact ⟨eq_of_getElem_set_ne, trivial⟩
  | ldVxK =>
    rcases hc with rfl | ⟨b, rfl⟩
    · exact ⟨fun hne => absurd rfl hne, trivial⟩
    · exact ⟨eq_of_getElem_set_ne, trivial⟩
  | addReg | subReg | subnReg =>
    cases hc; exact ⟨eq_or_eq_of_setWithFlag_ne, setWithFlag_flag .. ▸ flagByte_bit _⟩
  | shr | shl => cases hc; exact ⟨eq_or_eq_of_setWithFlag_ne, setWithFlag_flag .. ▸ and_one_bit _⟩
  | drw =>
    obtain ⟨d, hit, rfl⟩ := hc
    have flag : (s.v.set 15 (flagByte hit))[(15 : Reg)] = flagByte hit := getElem_set_reg s.v 15 15 _
    exact ⟨eq_of_getElem_set_ne (x := 15), fun _ _ => (flagByte_bit hit).imp flag.trans flag.trans⟩
  | ldVxMem x =>
    obtain ⟨bytes, hlen, rfl⟩ := hc
    exact ⟨fun hne => Nat.le_of_lt_succ ((lt_length_of_loadRegisters_ne hne).trans_eq hlen), trivial⟩
  | ret | call => obtain ⟨-, rfl⟩ := hc; exact ⟨fun hne => absurd rfl hne, trivial⟩
  | ldB | ldMemVx => obtain ⟨m, rfl⟩ := hc; exact ⟨fun hne => absurd rfl hne, trivial⟩
  | _ => cases hc; exact ⟨fun hne => absurd rfl hne, trivial⟩

/-! ### Which instruction writes another piece of the state -/

/-- The instruction an update of a piece of the state comes from; the keypad, W, H and the configuration have none. -/
theorem exec_frame {s t : State} {ins : Instr} (h : exec ins s = .next t) :
    (t.i ≠ s.i → (∃ nnn, ins = .ldI nnn) ∨ (∃ x, ins = .addI x) ∨ ∃ x, ins = .ldF x) ∧
    (t.stack ≠ s.stack → ∃ nnn, ins = .call nnn) ∧
    (t.depth ≠ s.depth → (∃ nnn, ins = .call nnn) ∨ ins = .ret) ∧
    (t.dt ≠ s.dt → ∃ x, ins = .ldDtVx x) ∧
    (t.st ≠ s.st → ∃ x, ins = .ldStVx x) ∧
    (t.pixels ≠ s.pixels → ins = .cls ∨ ∃ x y n, ins = .drw x y n) ∧
    (t.mem ≠ s.mem → (∃ x, ins = .ldB x) ∨ ∃ x, ins = .ldMemVx x) ∧
    (t.rand ≠ s.rand → ∃ x kk, ins = .rnd x kk) ∧
    t.keys = s.keys ∧ t.w = s.w ∧ t.h = s.h ∧ t.cfg = s.cfg := by
  rcases exec_raised_or_completes h with ⟨r, -, rfl⟩ | hc
  · simp
  cases ins with
  | ret | call => obtain ⟨-, rfl⟩ := hc; simp
  | ldVxK => rcases hc with rfl | ⟨b, rfl⟩ <;> simp
  | drw => obtain ⟨d, hit, rfl⟩ := hc; simp
  | ldB | ldMemVx => obtain ⟨m, rfl⟩ := hc; simp
  | ldVxMem => obtain ⟨bytes, -, rfl⟩ := hc; simp
  | _ => cases hc; simp

/-- Settles O16: only a Step that runs an instruction changes these pieces, and `exec_frame` says which instruction. -/
theorem onlyTheListedInstructionsChangeTheRest : Obligations.OnlyTheListedInstructionsChangeTheRest := by
  intro s t h
  rcases step_cases s with ⟨-, e⟩ | ⟨-, a, -, e⟩ | ⟨hr, op, ins, hf, hd, e⟩ | ⟨-, op, er, -, -, e⟩
  case inr.inr.inl =>
    have runs : ∀ {j : Instr}, ins = j → Decodes s j := fun hj => ⟨hr, op, hf, hj ▸ hd⟩
    obtain ⟨hi, hstack, hdepth, hdt, hst, hpixels, hmem, hrand, hrest⟩ := exec_frame (e.symm.trans h)
    refine ⟨fun c => ?_, fun c => ?_, fun c => ?_, fun c => ?_, fun c => ?_, fun c => ?_, fun c => ?_, fun c => ?_, hrest⟩
    · exact (hi c).imp (.imp fun _ => runs) (.imp (.imp fun _ => runs) (.imp fun _ => runs))
    · exact (hstack c).imp fun _ => runs
    · exact (hdepth c).imp (.imp fun _ => runs) runs
    · exact (hdt c).imp fun _ => runs
    · exact (hst c).imp fun _ => runs
    · exact (hpixels c).imp runs (.imp fun _ => .imp fun _ => .imp fun _ => runs)
    · exact (hmem c).imp (.imp fun _ => runs) (.imp fun _ => runs)
    · exact (hrand c).imp fun _ => .imp fun _ => runs
  all_goals
    obtain rfl := Host.Outcome.next.inj (e.symm.trans h)
    simp

/-! ### Nested calls (R27) -/

/-- A run goes on from the state its first instruction answers. -/
theorem execAll_cons {ins : Instr} {s t : State} (h : exec ins s = .next t) (rest : List Instr) :
    execAll (ins :: rest) s = execAll rest t := by
  simp only [execAll, h]

/-- Settles O28, by induction on the calls: each finds room, because the calls still to come count the free slots. -/
theorem nestedCallsFillTheStack : Obligations.NestedCallsFillTheStack := by
  intro targets
  induction targets with
  | nil =>
    intro s room
    have full : s.depth = s.cfg.stackDepth := room
    exact ⟨s, rfl, full, rfl, fun nnn => if_pos full⟩
  | cons nnn targets ih =>
    intro s room
    rw [List.length_cons] at room
    obtain ⟨full, -⟩ | ⟨-, called⟩ := execCall_cases nnn s
    · omega
    · obtain ⟨t, run, depth, halt, overflow⟩ := ih { s with
        stack := s.stack.set s.depth (s.pc + 2), depth := s.depth + 1, pc := zextAddr nnn } (by simp only; omega)
      refine ⟨t, ?_, depth, halt, overflow⟩
      exact (execAll_cons (ins := .call nnn) called _).trans run

/-! ### Plain adds, Reset and Query -/

/-- Settles O33: the sums of bit vectors are the sums modulo 2^8 and 2^16. -/
theorem plainAddsWrapWithoutFlag : Obligations.PlainAddsWrapWithoutFlag := by
  intro s x
  refine ⟨fun kk => ⟨s.v[x] + kk, BitVec.toNat_add .., rfl⟩, s.i + zextByte s.v[x], ?_, rfl⟩
  rw [BitVec.toNat_add, zextByte_toNat]

/-- Memory after construction is the background alone (R250). -/
theorem byteAt_construct (c : Config) (g : RandomSource) (a : Nat) :
    byteAt (State.construct c g) a = background c a := rfl

/-- Settles O58: Reset constructs anew, and a valid PROGRAM_START fits in PC. -/
theorem resetGivesTheConstructionValues : Obligations.ResetGivesTheConstructionValues := by
  intro s hc
  obtain ⟨-, hstart, hmem, -⟩ := hc
  refine ⟨resetMachine s, rfl, fun k => ?_, rfl, ?_, rfl, rfl, rfl, rfl, rfl, rfl, rfl, fun k => ?_, rfl, fun a => ?_,
    rfl, rfl⟩
  · simp [resetMachine, State.construct]
  · exact Nat.mod_eq_of_lt (by omega)
  · simp [resetMachine, State.construct]
  · rw [resetMachine, byteAt_construct]
    simp [background, inFont]

/-- Settles O59: the snapshot copies its fields, and writes memory out address by address. -/
theorem queryIsAReadOnlySnapshot : Obligations.QueryIsAReadOnlySnapshot := by
  intro s
  refine ⟨query s, rfl, rfl, rfl, rfl, rfl, rfl, rfl, rfl, rfl, rfl, rfl, rfl, ?_, fun a ha => ?_,
    fun hd => if_pos hd, fun hd => if_neg hd⟩
  · simp [query]
  · simp [query, ha]

end Sys2Proof.Machine

namespace Sys2Proof.Machine

/-! ## Memory and the fetch (spec/20_memory.md R52 to R55, R60, R62) -/

/-- Settles O20: every host operation keeps the invariant, so every schedule of them does. -/
theorem schedulesKeepTheInvariant : Obligations.SchedulesKeepTheInvariant :=
  fun ops _ => runSchedule_inv ops

/-! ### One checked write -/

theorem inFont_iff (c : Config) (a : Nat) : inFont c a = true ↔ c.fontBase ≤ a ∧ a < c.fontBase + 80 := by
  simp [inFont]

/-- Settles O44: the checks of `memWrite` decide between an error and `pokeByte`, whose effect on reads is `read_put`. -/
theorem byteWriteThenRead : Obligations.ByteWriteThenRead := by
  intro s a v
  rw [← inFont_iff]
  refine ⟨fun ⟨inside, outsideFont⟩ => ?_, fun refused => ?_⟩
  · have written := (memWrite_ok_iff s _ a v).2 ⟨inside, Bool.eq_false_iff.2 outsideFont, rfl⟩
    exact ⟨pokeByte s a v, written, rfl, fun canonical => ⟨put_wf canonical inside v, byteAt_pokeByte canonical a v⟩⟩
  · rw [not_and_not_right] at refused
    exact (memWrite_error_iff s a a v).2 ⟨or_iff_not_imp_left.2 fun h => refused (not_le.1 h), rfl⟩

/-! ### The fetched word -/

/-- A fetch inside memory reads two bytes as one number, high byte first (R52). -/
theorem fetch_bigEndian {s : State} (h : s.pc.toNat + 1 < s.cfg.memSize) : ∃ op : Word, fetch s = .ok op ∧
    op.toNat = (byteAt s s.pc.toNat).toNat * 256 + (byteAt s (s.pc.toNat + 1)).toNat :=
  ⟨_, fetch_ok h, append_toNat ..⟩

/-- Settles O6: the word of the statement is the one fetched, because both are the same number. -/
theorem stepRunsTheDecodedInstruction : Obligations.StepRunsTheDecodedInstruction := by
  intro s op running inside value
  obtain ⟨fetched, hf, hv⟩ := fetch_bigEndian inside
  obtain rfl : fetched = op := BitVec.eq_of_toNat_eq (hv.trans value.symm)
  rw [step_of_fetch running hf]
  exact ⟨fun i hd => runOpcode_of_decode hd s, fun e hd => runOpcode_of_unknown hd s⟩

/-- A Step that leaves a halt record returns Halted with its cause (R214). -/
theorem stepStatus_of_halt {s t : State} {r : HaltRecord} (h : step s = .next t) (hr : t.halt = some r) :
    stepStatus s = .halted r.cause := by
  rw [step] at h
  simp only [stepStatus, h, haltOf, hr]

/-- Settles O7: the failing fetch is the first of the two reads that leaves memory. -/
theorem fetchOutsideMemoryHalts : Obligations.FetchOutsideMemoryHalts := by
  intro s running outside
  have halts := step_of_fetch_error running (fetch_error outside)
  exact ⟨halts, stepStatus_of_halt halts rfl⟩

/-! ### Fetching what Fx55 stored -/

theorem registersUpTo_getD (s : State) {x k : Reg} (h : k ≤ x) : (registersUpTo s x).getD k.val 0 = s.v[k] := by
  have : k.val < x.val + 1 := Nat.lt_succ_of_le h
  simp [registersUpTo, List.getD_eq_getElem?_getD, this]

/-- Fx55 raises nothing where it may write (R181). -/
theorem execLdMemVx_of_writable {s : State} {x : Reg} (h : Writable s s.i.toNat (x.val + 1)) : exec (.ldMemVx x) s =
    .next { s with mem := (pokeBytes s s.i.toNat (registersUpTo s x)).mem, pc := s.pc + 2 } := by
  rcases execLdMemVx_cases x s with ⟨-, e⟩ | ⟨k, hk, refused, -⟩
  · exact e
  · obtain ⟨inside, outsideFont⟩ := h k hk
    simp [outsideFont, not_le.2 inside] at refused

/-- After Fx55, V[k] stands at I + k for every k from 0 to x (R181). -/
theorem byteAt_storedRegisters {s : State} {x : Reg} (canonical : Memory.wf s.cfg s.mem)
    (fits : s.i.toNat + (x.val + 1) ≤ s.cfg.memSize) {k : Reg} (h : k ≤ x) (pc : Word) :
    byteAt { s with mem := (pokeBytes s s.i.toNat (registersUpTo s x)).mem, pc := pc } (s.i.toNat + k.val) =
      s.v[k] := by
  have stored : k.val < (registersUpTo s x).length := by simpa [Nat.lt_succ_iff] using h
  rw [byteAt_stored canonical (by simpa using fits), if_pos ⟨Nat.le_add_right .., Nat.add_lt_add_left stored _⟩,
    Nat.add_sub_cancel_left, registersUpTo_getD s h]

/-- Settles O50: both bytes of the fetch lie in the block Fx55 wrote, at I + k and the address after it. -/
theorem fetchSeesStoredBytes : Obligations.FetchSeesStoredBytes := by
  intro s t x k k' at0 canonical writable h hat hk' hx
  obtain rfl := Host.Outcome.next.inj (h.symm.trans (execLdMemVx_of_writable writable))
  have fits := writable_fits writable
  have hx' : k'.val ≤ x.val := hx
  have lowByte : at0.toNat + 1 = s.i.toNat + k'.val := by omega
  have inside : at0.toNat + 1 < s.cfg.memSize := by omega
  obtain ⟨op, hf, hv⟩ := fetch_bigEndian (s := { s with
    mem := (pokeBytes s s.i.toNat (registersUpTo s x)).mem, pc := at0 }) inside
  refine ⟨op, hf, hv.trans ?_⟩
  dsimp only
  rw [lowByte, hat, byteAt_storedRegisters canonical fits (Fin.le_def.2 (by omega)),
    byteAt_storedRegisters canonical fits hx]

end Sys2Proof.Machine

namespace Sys2Proof

/-! ## Decoding and encoding (spec/30_encoding.md R71 to R76)

Each row's word is a packed format (R72), and the fields of a word, packed again, are the word: both round trips follow. A
table row selects exactly the words of its instruction, so the decoder, being a function, makes the rows disjoint. -/

/-! ### The word of a class is its fields packed -/

section
variable {op : Word} {c : Nibble} (hc : fieldC op = c)
include hc

theorem packA_of_class : packA c (fieldNNN op) = op := hc ▸ packA_fields op

theorem packXK_of_class : packXK c (fieldX op) (fieldKK op) = op := hc ▸ packXK_fields op

theorem packXK_of_class_kk {kk : Byte} (hk : fieldKK op = kk) : packXK c (fieldX op) kk = op :=
  hk ▸ packXK_of_class hc

theorem packXYN_of_class : packXYN c (fieldX op) (fieldY op) (fieldN op) = op := hc ▸ packXYN_fields op

theorem packXYN_of_class_n {n : Nibble} (hn : fieldN op = n) : packXYN c (fieldX op) (fieldY op) n = op :=
  hn ▸ packXYN_of_class hc

end

/-! ### From an instruction to its word and back -/

theorem sys_wellFormed_iff (nnn : Addr12) : (Instr.sys nnn).WellFormed ↔ nnn ≠ 0x0E0#12 ∧ nnn ≠ 0x0EE#12 := by
  simp [Instr.WellFormed, Instr.wellFormed]

/-- Row 3 is what is left of class 0 when the word is neither CLS nor RET. -/
theorem decodeClass0_of_ne {op : Word} (notCls : op ≠ 0x00E0#16) (notRet : op ≠ 0x00EE#16) :
    decodeClass0 op = .sys (fieldNNN op) := by
  rw [decodeClass0, if_neg notCls, if_neg notRet]

/-- In class 0, `nnn` is the whole word: a well-formed SYS has neither the word of CLS nor that of RET. -/
theorem sys_wellFormed_iff_word {op : Word} (hc : fieldC op = 0x0#4) :
    (Instr.sys (fieldNNN op)).WellFormed ↔ op ≠ 0x00E0#16 ∧ op ≠ 0x00EE#16 := by
  have word_eq_iff (nnn : Addr12) : op = packA 0x0#4 nnn ↔ fieldNNN op = nnn :=
    ⟨fun e => by rw [e, fieldNNN_packA], fun e => by rw [← e, packA_of_class hc]⟩
  rw [sys_wellFormed_iff, ne_eq, ne_eq, ← word_eq_iff, ← word_eq_iff]
  exact Iff.rfl

theorem decode_encode {i : Instr} (h : i.WellFormed) : decode (encode i) = .ok i := by
  cases i with
  | cls | ret => rfl
  | sys nnn =>
    have hc : fieldC (packA 0x0#4 nnn) = 0x0#4 := fieldC_packA ..
    obtain ⟨notCls, notRet⟩ := (sys_wellFormed_iff_word hc).1 (by rwa [fieldNNN_packA])
    rw [encode, decode_class0 _ hc, decodeClass0_of_ne notCls notRet, fieldNNN_packA]
  | jp | call | ldI | jpV0 => simp [encode, decode]
  | seImm | sneImm | ldImm | addImm | rnd => simp [encode, decode]
  | seReg | sneReg | drw => simp [encode, decode]
  | ldReg | orReg | andReg | xorReg | addReg | subReg | shr | subnReg | shl => simp [encode, decode, decodeClass8]
  | skp | sknp => simp [encode, decode, decodeClassE]
  | ldVxDt | ldVxK | ldDtVx | ldStVx | addI | ldF | ldB | ldMemVx | ldVxMem => simp [encode, decode, decodeClassF]

/-- Settles O1, by the formats of R72: the fields of a packed word are the operands packed, and SYS is told from CLS and
RET by its well-formedness. -/
theorem decodeEncodeRoundTrip : Obligations.DecodeEncodeRoundTrip :=
  fun _ => decode_encode

/-! ### From a word to its instruction and back -/

theorem decodeClass0_encodes {op : Word} (hc : fieldC op = 0x0#4) :
    (decodeClass0 op).WellFormed ∧ encode (decodeClass0 op) = op := by
  fun_cases decodeClass0 op with
  | case1 isCls => exact ⟨rfl, isCls.symm⟩
  | case2 _ isRet => exact ⟨rfl, isRet.symm⟩
  | case3 notCls notRet => exact ⟨(sys_wellFormed_iff_word hc).2 ⟨notCls, notRet⟩, packA_of_class hc⟩

theorem decodeClass8_encodes {op : Word} (hc : fieldC op = 0x8#4) {i : Instr} (h : decodeClass8 op = .ok i) :
    i.WellFormed ∧ encode i = op := by
  revert h
  fun_cases decodeClass8 op with
  | case10 => nofun
  | _ => rintro ⟨⟩; exact ⟨rfl, packXYN_of_class_n hc ‹_›⟩

theorem decodeClassE_encodes {op : Word} (hc : fieldC op = 0xE#4) {i : Instr} (h : decodeClassE op = .ok i) :
    i.WellFormed ∧ encode i = op := by
  revert h
  fun_cases decodeClassE op with
  | case3 => nofun
  | _ => rintro ⟨⟩; exact ⟨rfl, packXK_of_class_kk hc ‹_›⟩

theorem decodeClassF_encodes {op : Word} (hc : fieldC op = 0xF#4) {i : Instr} (h : decodeClassF op = .ok i) :
    i.WellFormed ∧ encode i = op := by
  revert h
  fun_cases decodeClassF op with
  | case10 => nofun
  | _ => rintro ⟨⟩; exact ⟨rfl, packXK_of_class_kk hc ‹_›⟩

theorem decode_encodes {op : Word} {i : Instr} (h : decode op = .ok i) : i.WellFormed ∧ encode i = op := by
  revert h
  fun_cases decode op with
  | case1 hc => rintro ⟨⟩; exact decodeClass0_encodes hc
  | case2 | case3 | case13 | case14 => rintro ⟨⟩; exact ⟨rfl, packA_of_class ‹_›⟩
  | case4 | case5 | case8 | case9 | case15 => rintro ⟨⟩; exact ⟨rfl, packXK_of_class ‹_›⟩
  | case6 | case11 => rintro ⟨⟩; exact ⟨rfl, packXYN_of_class_n ‹_› ‹_›⟩
  | case7 | case12 => nofun
  | case10 => exact decodeClass8_encodes ‹_›
  | case16 => rintro ⟨⟩; exact ⟨rfl, packXYN_of_class ‹_›⟩
  | case17 => exact decodeClassE_encodes ‹_›
  | case18 =>
    have hc : fieldC op = 0xF#4 := by simpa [*] using nibble_cases (fieldC op)
    exact decodeClassF_encodes hc

/-- Settles O2, by the branches of the decoder: each fixes the fields its format does not carry, so packing the operands
gives the word back. -/
theorem encodeDecodeRoundTrip : Obligations.EncodeDecodeRoundTrip :=
  fun _ _ => decode_encodes

/-! ### The words a row of the opcode map selects (R75) -/

theorem fieldC_and (a b : Word) : fieldC (a &&& b) = fieldC a &&& fieldC b := BitVec.extractLsb'_and
theorem fieldN_and (a b : Word) : fieldN (a &&& b) = fieldN a &&& fieldN b := BitVec.extractLsb'_and
theorem fieldKK_and (a b : Word) : fieldKK (a &&& b) = fieldKK a &&& fieldKK b := BitVec.extractLsb'_and

section
variable {op mask value : Word} (masked : op &&& mask = value)
include masked

theorem fieldC_of_masked (hm : fieldC mask = 15#4) : fieldC op = fieldC value := by
  rw [← masked, fieldC_and, hm, Laws.and_F]

theorem fieldN_of_masked (hm : fieldN mask = 15#4) : fieldN op = fieldN value := by
  rw [← masked, fieldN_and, hm, Laws.and_F]

theorem fieldKK_of_masked (hm : fieldKK mask = 255#8) : fieldKK op = fieldKK value := by
  rw [← masked, fieldKK_and, hm, Laws.and_FF]

end

theorem selectsRow_iff {op value mask : Word} {r : Nat} (row : opcodeMap[r - 1]? = some (value, mask)) :
    selectsRow op r = true ↔ op &&& mask = value ∧ (r = 3 → op ≠ 0x00E0#16 ∧ op ≠ 0x00EE#16) := by
  simp [selectsRow, row, ← imp_iff_not_or]

section
variable {op : Word} {r : Nat} {c : Nibble} (h : selectsRow op r = true)
include h

theorem masked_of_row {value mask : Word} (row : opcodeMap[r - 1]? = some (value, mask)) : op &&& mask = value :=
  ((selectsRow_iff row).1 h).1

theorem word_of_row {value : Word} (row : opcodeMap[r - 1]? = some (value, 0xFFFF#16)) : value = op := by
  rw [← masked_of_row h row, show (0xFFFF#16) = BitVec.allOnes 16 from rfl, BitVec.and_allOnes]

theorem packA_of_row (row : opcodeMap[r - 1]? = some (packA c 0, 0xF000#16)) : packA c (fieldNNN op) = op :=
  packA_of_class ((fieldC_of_masked (masked_of_row h row) rfl).trans (fieldC_packA ..))

theorem packXK_of_row (row : opcodeMap[r - 1]? = some (packXK c 0 0, 0xF000#16)) :
    packXK c (fieldX op) (fieldKK op) = op :=
  packXK_of_class ((fieldC_of_masked (masked_of_row h row) rfl).trans (fieldC_packXK ..))

theorem packXK_of_row_kk {kk : Byte} (row : opcodeMap[r - 1]? = some (packXK c 0 kk, 0xF0FF#16)) :
    packXK c (fieldX op) kk = op :=
  packXK_of_class_kk ((fieldC_of_masked (masked_of_row h row) rfl).trans (fieldC_packXK ..))
    ((fieldKK_of_masked (masked_of_row h row) rfl).trans (fieldKK_packXK ..))

theorem packXYN_of_row (row : opcodeMap[r - 1]? = some (packXYN c 0 0 0, 0xF000#16)) :
    packXYN c (fieldX op) (fieldY op) (fieldN op) = op :=
  packXYN_of_class ((fieldC_of_masked (masked_of_row h row) rfl).trans (fieldC_packXYN ..))

theorem packXYN_of_row_n {n : Nibble} (row : opcodeMap[r - 1]? = some (packXYN c 0 0 n, 0xF00F#16)) :
    packXYN c (fieldX op) (fieldY op) n = op :=
  packXYN_of_class_n ((fieldC_of_masked (masked_of_row h row) rfl).trans (fieldC_packXYN ..))
    ((fieldN_of_masked (masked_of_row h row) rfl).trans (fieldN_packXYN ..))

end

/-- The side condition of row 3 is the well-formedness of SYS. -/
theorem sys_wellFormed_of_row {op : Word} (h : selectsRow op 3 = true) : (Instr.sys (fieldNNN op)).WellFormed :=
  have ⟨masked, notRows1And2⟩ := (selectsRow_iff rfl).1 h
  (sys_wellFormed_iff_word (fieldC_of_masked masked rfl)).2 (notRows1And2 rfl)

/-- A row selects only words of its own instruction: the converse of the family `RowMatch`. -/
theorem exists_encode_of_selectsRow {op : Word} : ∀ r, 1 ≤ r → r ≤ 35 → selectsRow op r = true →
    ∃ i : Instr, i.WellFormed ∧ encode i = op ∧ i.rowNumber = r
  | 1, _, _, h => ⟨.cls, rfl, word_of_row h rfl, rfl⟩
  | 2, _, _, h => ⟨.ret, rfl, word_of_row h rfl, rfl⟩
  | 3, _, _, h => ⟨.sys _, sys_wellFormed_of_row h, packA_of_row h rfl, rfl⟩
  | 4, _, _, h => ⟨.jp _, rfl, packA_of_row h rfl, rfl⟩
  | 5, _, _, h => ⟨.call _, rfl, packA_of_row h rfl, rfl⟩
  | 6, _, _, h => ⟨.seImm _ _, rfl, packXK_of_row h rfl, rfl⟩
  | 7, _, _, h => ⟨.sneImm _ _, rfl, packXK_of_row h rfl, rfl⟩
  | 8, _, _, h => ⟨.seReg _ _, rfl, packXYN_of_row_n h rfl, rfl⟩
  | 9, _, _, h => ⟨.ldImm _ _, rfl, packXK_of_row h rfl, rfl⟩
  | 10, _, _, h => ⟨.addImm _ _, rfl, packXK_of_row h rfl, rfl⟩
  | 11, _, _, h => ⟨.ldReg _ _, rfl, packXYN_of_row_n h rfl, rfl⟩
  | 12, _, _, h => ⟨.orReg _ _, rfl, packXYN_of_row_n h rfl, rfl⟩
  | 13, _, _, h => ⟨.andReg _ _, rfl, packXYN_of_row_n h rfl, rfl⟩
  | 14, _, _, h => ⟨.xorReg _ _, rfl, packXYN_of_row_n h rfl, rfl⟩
  | 15, _, _, h => ⟨.addReg _ _, rfl, packXYN_of_row_n h rfl, rfl⟩
  | 16, _, _, h => ⟨.subReg _ _, rfl, packXYN_of_row_n h rfl, rfl⟩
  | 17, _, _, h => ⟨.shr _ _, rfl, packXYN_of_row_n h rfl, rfl⟩
  | 18, _, _, h => ⟨.subnReg _ _, rfl, packXYN_of_row_n h rfl, rfl⟩
  | 19, _, _, h => ⟨.shl _ _, rfl, packXYN_of_row_n h rfl, rfl⟩
  | 20, _, _, h => ⟨.sneReg _ _, rfl, packXYN_of_row_n h rfl, rfl⟩
  | 21, _, _, h => ⟨.ldI _, rfl, packA_of_row h rfl, rfl⟩
  | 22, _, _, h => ⟨.jpV0 _, rfl, packA_of_row h rfl, rfl⟩
  | 23, _, _, h => ⟨.rnd _ _, rfl, packXK_of_row h rfl, rfl⟩
  | 24, _, _, h => ⟨.drw _ _ _, rfl, packXYN_of_row h rfl, rfl⟩
  | 25, _, _, h => ⟨.skp _, rfl, packXK_of_row_kk h rfl, rfl⟩
  | 26, _, _, h => ⟨.sknp _, rfl, packXK_of_row_kk h rfl, rfl⟩
  | 27, _, _, h => ⟨.ldVxDt _, rfl, packXK_of_row_kk h rfl, rfl⟩
  | 28, _, _, h => ⟨.ldVxK _, rfl, packXK_of_row_kk h rfl, rfl⟩
  | 29, _, _, h => ⟨.ldDtVx _, rfl, packXK_of_row_kk h rfl, rfl⟩
  | 30, _, _, h => ⟨.ldStVx _, rfl, packXK_of_row_kk h rfl, rfl⟩
  | 31, _, _, h => ⟨.addI _, rfl, packXK_of_row_kk h rfl, rfl⟩
  | 32, _, _, h => ⟨.ldF _, rfl, packXK_of_row_kk h rfl, rfl⟩
  | 33, _, _, h => ⟨.ldB _, rfl, packXK_of_row_kk h rfl, rfl⟩
  | 34, _, _, h => ⟨.ldMemVx _, rfl, packXK_of_row_kk h rfl, rfl⟩
  | 35, _, _, h => ⟨.ldVxMem _, rfl, packXK_of_row_kk h rfl, rfl⟩
  | r + 36, _, h, _ => absurd h (by omega)

theorem rowMatch (i : Instr) : Laws.RowMatch.Statement i := by
  open Laws in
  cases i
  exacts [RowMatch.cls, RowMatch.ret, RowMatch.sys _, RowMatch.jp _, RowMatch.call _, RowMatch.seImm _ _,
    RowMatch.sneImm _ _, RowMatch.seReg _ _, RowMatch.ldImm _ _, RowMatch.addImm _ _, RowMatch.ldReg _ _,
    RowMatch.orReg _ _, RowMatch.andReg _ _, RowMatch.xorReg _ _, RowMatch.addReg _ _, RowMatch.subReg _ _,
    RowMatch.shr _ _, RowMatch.subnReg _ _, RowMatch.shl _ _, RowMatch.sneReg _ _, RowMatch.ldI _, RowMatch.jpV0 _,
    RowMatch.rnd _ _, RowMatch.drw _ _ _, RowMatch.skp _, RowMatch.sknp _, RowMatch.ldVxDt _, RowMatch.ldVxK _,
    RowMatch.ldDtVx _, RowMatch.ldStVx _, RowMatch.addI _, RowMatch.ldF _, RowMatch.ldB _, RowMatch.ldMemVx _,
    RowMatch.ldVxMem _]

theorem rowNumber_bounds (i : Instr) : 1 ≤ i.rowNumber ∧ i.rowNumber ≤ 35 := by
  cases i <;> simp [Instr.rowNumber]

theorem encode_injective {i j : Instr} (hi : i.WellFormed) (hj : j.WellFormed) (h : encode i = encode j) : i = j := by
  have decoded := decode_encode hi
  rw [h, decode_encode hj] at decoded
  exact (Except.ok.inj decoded).symm

theorem selectsRow_encode {i : Instr} (h : i.WellFormed) : selectsRow (encode i) i.rowNumber = true := by
  obtain ⟨value, mask, row, masked⟩ := rowMatch i
  refine (selectsRow_iff row).2 ⟨masked, fun row3 => ⟨fun e => ?_, fun e => ?_⟩⟩
  · obtain rfl := encode_injective (j := .cls) h rfl e
    exact absurd row3 (by decide)
  · obtain rfl := encode_injective (j := .ret) h rfl e
    exact absurd row3 (by decide)

/-- The decoder answers an instruction of row `r` exactly if the word selects row `r`. -/
theorem selectsRow_iff_decode {op : Word} {r : Nat} (hr : 1 ≤ r) (hr' : r ≤ 35) :
    selectsRow op r = true ↔ ∃ i, decode op = .ok i ∧ i.rowNumber = r := by
  constructor
  · intro h
    obtain ⟨i, wellFormed, rfl, row⟩ := exists_encode_of_selectsRow r hr hr' h
    exact ⟨i, decode_encode wellFormed, row⟩
  · rintro ⟨i, hd, rfl⟩
    obtain ⟨wellFormed, rfl⟩ := decode_encodes hd
    exact selectsRow_encode wellFormed

/-- Settles O3: the row of the decoded instruction is selected, and there is only one decoded instruction. -/
theorem decodeSelectsTheTableRow : Obligations.DecodeSelectsTheTableRow := by
  intro op
  refine ⟨fun i hd r hr hr' => ?_, ?_⟩
  · simp [selectsRow_iff_decode hr hr', hd, eq_comm]
  · cases hd : decode op with
    | error e =>
      refine iff_of_true ⟨e, rfl⟩ fun r hr hr' => ?_
      simp [← Bool.not_eq_true, selectsRow_iff_decode hr hr', hd]
    | ok i =>
      obtain ⟨hr, hr'⟩ := rowNumber_bounds i
      have selected := (selectsRow_iff_decode hr hr').2 ⟨i, hd, rfl⟩
      exact iff_of_false (by simp) fun none => by simp [none _ hr hr'] at selected

/-! ### The rejected words and SYS (R74, R76) -/

theorem fieldC_eq_iff (op : Word) (c : Nibble) : fieldC op = c ↔ op.toNat / 4096 = c.toNat := by
  rw [BitVec.toNat_eq, fieldC_toNat]

theorem fieldN_eq_iff (op : Word) (n : Nibble) : fieldN op = n ↔ op.toNat % 16 = n.toNat := by
  rw [BitVec.toNat_eq, fieldN_toNat]

theorem fieldKK_eq_iff (op : Word) (kk : Byte) : fieldKK op = kk ↔ op.toNat % 256 = kk.toNat := by
  rw [BitVec.toNat_eq, fieldKK_toNat]

theorem decodeClass8_error_iff (op : Word) : decodeClass8 op = .error (.unknownOpcode op) ↔
    op.toNat % 16 ∈ [0x8, 0x9, 0xA, 0xB, 0xC, 0xD, 0xF] := by
  rcases nibble_cases (fieldN op) with hn | hn | hn | hn | hn | hn | hn | hn | hn | hn | hn | hn | hn | hn | hn | hn
  all_goals simp [decodeClass8, hn, ← fieldN_toNat]

theorem decodeClassE_error_iff (op : Word) : decodeClassE op = .error (.unknownOpcode op) ↔
    op.toNat % 256 ∉ [0x9E, 0xA1] := by
  simp [decodeClassE, ite_eq_iff, fieldKK_eq_iff]

theorem decodeClassF_error_iff (op : Word) : decodeClassF op = .error (.unknownOpcode op) ↔
    op.toNat % 256 ∉ [0x07, 0x0A, 0x15, 0x18, 0x1E, 0x29, 0x33, 0x55, 0x65] := by
  simp [decodeClassF, ite_eq_iff, fieldKK_eq_iff]

/-- Only classes 5, 8, 9, E and F reject a word. -/
theorem decode_error_iff (op : Word) : decode op = .error (.unknownOpcode op) ↔
    (fieldC op = 0x5#4 ∧ fieldN op ≠ 0x0#4) ∨ (fieldC op = 0x8#4 ∧ decodeClass8 op = .error (.unknownOpcode op)) ∨
    (fieldC op = 0x9#4 ∧ fieldN op ≠ 0x0#4) ∨ (fieldC op = 0xE#4 ∧ decodeClassE op = .error (.unknownOpcode op)) ∨
    (fieldC op = 0xF#4 ∧ decodeClassF op = .error (.unknownOpcode op)) := by
  rcases nibble_cases (fieldC op) with hc | hc | hc | hc | hc | hc | hc | hc | hc | hc | hc | hc | hc | hc | hc | hc
  all_goals simp [decode, hc]

/-- SYS is class 0 without the words of CLS and RET. -/
theorem decode_sys_iff (op : Word) :
    (∃ nnn, decode op = .ok (.sys nnn)) ↔ fieldC op = 0x0#4 ∧ op ≠ 0x00E0#16 ∧ op ≠ 0x00EE#16 := by
  constructor
  · rintro ⟨nnn, hd⟩
    obtain ⟨wellFormed, rfl⟩ := decode_encodes hd
    have hc : fieldC (packA 0x0#4 nnn) = 0x0#4 := fieldC_packA ..
    exact ⟨hc, (sys_wellFormed_iff_word hc).1 (by rwa [fieldNNN_packA])⟩
  · rintro ⟨hc, notCls, notRet⟩
    exact ⟨_, (decode_class0 op hc).trans (congrArg _ (decodeClass0_of_ne notCls notRet))⟩

/-- Settles O4: which classes reject, and for which `n` or `kk`, is said class by class; the fields are then read as
quotients and remainders of the word. -/
theorem unknownOpcodesAreTheListedOnes : Obligations.UnknownOpcodesAreTheListedOnes := by
  intro op
  refine ⟨?_, ?_⟩
  · rw [decode_error_iff, decodeClass8_error_iff, decodeClassE_error_iff, decodeClassF_error_iff]
    simp only [ne_eq, fieldC_eq_iff, fieldN_eq_iff]
    exact Iff.rfl
  · rw [decode_sys_iff, fieldC_eq_iff, ne_eq, ne_eq, BitVec.toNat_eq, BitVec.toNat_eq]
    exact Iff.rfl

/-- Settles O5: the decoder computes on written-out words. -/
theorem specWordsDecode : Obligations.SpecWordsDecode := by
  unfold Obligations.SpecWordsDecode
  decide

end Sys2Proof

namespace Sys2Proof.Machine

/-! ### The no-op of SYS and of an unknown opcode (R100, R214) -/

section
variable {s t : State} {op : Word} (h : step s = .next t) (ht : Running t) (hf : fetch s = .ok op)
include h ht hf

/-- The status of a Step that raises nothing is that of its instruction (R214). -/
theorem stepStatus_of_decode {ins : Instr} (hd : decode op = .ok ins) : stepStatus s = completionStatus s ins := by
  rw [step] at h
  rw [Running] at ht
  simp only [stepStatus, h, haltOf, ht, hf, hd]

/-- The status of a Step on a rejected word names the word (R214). -/
theorem stepStatus_of_unknown {e : DecodeError} (hd : decode op = .error e) : stepStatus s = .unknownOpcode op := by
  rw [step] at h
  rw [Running] at ht
  simp only [stepStatus, h, haltOf, ht, hf, hd]

end

/-- Settles O9: both kinds of word advance PC alone; the status names the fetched word, which for SYS is the word of the
decoded instruction (O2). -/
theorem unknownOpcodeIsANoOp : Obligations.UnknownOpcodeIsANoOp := by
  refine ⟨fun _ _ => rfl, fun s op running hf kind => ?_⟩
  rcases kind with hd | ⟨nnn, hd⟩
  · have advances := (step_of_fetch running hf).trans (runOpcode_of_unknown hd s)
    exact ⟨advances, stepStatus_of_unknown advances running hf hd⟩
  · have advances : step s = .next { s with pc := s.pc + 2 } :=
      (step_of_fetch running hf).trans (runOpcode_of_decode hd s)
    obtain ⟨-, word⟩ := decode_encodes hd
    exact ⟨advances, (stepStatus_of_decode advances running hf hd).trans (congrArg StepStatus.unknownOpcode word)⟩

end Sys2Proof.Machine

namespace Sys2Proof.Machine

/-! ## Control flow and the status of a Step (spec/40_control_flow.md R100 to R108, 60_exceptions.md R210 to R216) -/

/-! ### A Step answers a state, and its status says what changed -/

/-- Settles O10: the answer is the state that a host's Step leaves. -/
theorem stepAlwaysAnswersNext : Obligations.StepAlwaysAnswersNext :=
  fun s => ⟨afterStep s, step_afterStep s⟩

/-- A Step that halts a running machine writes the halt record, with its PC, and nothing else (R211). -/
theorem step_halts_precisely {s t : State} {r : HaltRecord} (running : Running s) (h : step s = .next t)
    (ht : t.halt = some r) : t = haltedWith s r.cause r.opcode r.addr := by
  rcases step_effect h with rfl | ⟨-, effect⟩
  · exact absurd (ht.symm.trans running) nofun
  · cases effect with
    | raised consistent =>
      obtain rfl := Option.some.inj ht
      obtain ⟨pc, -⟩ := consistent
      rw [haltedWith, ← pc]
    | _ => exact absurd (ht.symm.trans running) nofun

/-- An instruction that raises nothing is SYS, a key wait with no key pressed, or one whose status is Ok (R214). -/
theorem completionStatus_cases (s : State) (ins : Instr) :
    (∃ nnn, ins = .sys nnn ∧ completionStatus s ins = .unknownOpcode (encode ins)) ∨
    (∃ x, ins = .ldVxK x ∧ leastKey s = none ∧ completionStatus s ins = .blocked) ∨
    completionStatus s ins = .ok := by
  cases ins with
  | sys nnn => exact .inl ⟨nnn, rfl, rfl⟩
  | ldVxK x =>
    by_cases noKey : leastKey s = none
    · exact .inr (.inl ⟨x, rfl, noKey, if_pos noKey⟩)
    · exact .inr (.inr (if_neg noKey))
  | _ => exact .inr (.inr rfl)

/-- Settles O11: a halt record says what a halted Step changed; a Step that leaves the machine running got its status from
the word it fetched. -/
theorem statusSaysWhatChanged : Obligations.StatusSaysWhatChanged := by
  intro s t h
  have answers : ∀ {u : State}, step s = .next u → t = u := fun e => Host.Outcome.next.inj (h.symm.trans e)
  rcases Option.eq_none_or_eq_some t.halt with ht | ⟨r, ht⟩
  · rcases step_cases s with ⟨⟨r, hr⟩, e⟩ | ⟨-, a, -, e⟩ | ⟨running, op, ins, hf, hd, e⟩ | ⟨-, op, er, hf, hd, e⟩
    · obtain rfl := answers e
      exact absurd (hr.symm.trans ht) nofun
    · obtain rfl := answers e
      exact nomatch ht
    · rw [stepStatus_of_decode h ht hf hd]
      rcases completionStatus_cases s ins with ⟨nnn, rfl, status⟩ | ⟨x, rfl, noKey, status⟩ | status <;> rw [status]
      · obtain ⟨-, word⟩ := decode_encodes hd
        exact ⟨word ▸ hf, answers e⟩
      · rcases execLdVxK_cases x s with ⟨-, unpressed, holds⟩ | ⟨k, key, -⟩
        · exact ⟨answers (e.trans holds), ⟨x, running, op, hf, hd⟩, unpressed⟩
        · exact absurd (noKey.symm.trans key) nofun
      · exact ⟨running, ht⟩
    · rw [stepStatus_of_unknown h ht hf hd]
      exact ⟨hf, answers e⟩
  · rw [stepStatus_of_halt h ht]
    rcases Option.eq_none_or_eq_some s.halt with hs | ⟨r', hs⟩
    · exact .inr ⟨hs, r.opcode, r.addr, step_halts_precisely hs h ht⟩
    · obtain rfl := answers (step_of_halted hs)
      exact .inl ⟨r, ht, rfl, rfl⟩

/-! ### RET and CALL (R101, R103) -/

theorem execRet_of_top {s : State} {top : Word} (used : s.depth ≠ 0) (htop : s.stack[s.depth - 1]? = some top) :
    exec .ret s = .next { s with pc := top, depth := s.depth - 1 } := by
  obtain ⟨empty, -⟩ | ⟨-, pops⟩ := execRet_cases s
  · exact absurd empty used
  · rwa [List.getD_eq_getElem?_getD, htop] at pops

/-- Settles O24: the top entry is the one that RET's read of the stack finds. -/
theorem retReturnsOrUnderflows : Obligations.RetReturnsOrUnderflows :=
  ⟨fun _ _ used htop => execRet_of_top used htop, fun _ empty => if_pos empty⟩

theorem execCall_of_room {s : State} (room : s.depth ≠ s.cfg.stackDepth) (nnn : Addr12) :
    exec (.call nnn) s = .next { s with
      stack := s.stack.set s.depth (s.pc + 2), depth := s.depth + 1, pc := zextAddr nnn } :=
  if_neg room

/-- Settles O26: the two depths are the two branches of CALL. -/
theorem callPushesTheReturnAddressOrOverflows : Obligations.CallPushesTheReturnAddressOrOverflows :=
  fun _ nnn => ⟨fun room => ⟨zextAddr nnn, zextAddr_toNat nnn, execCall_of_room room nnn⟩,
    fun full => ⟨encode (.call nnn), packA_toNat 0x2#4 nnn, if_pos full⟩⟩

/-- Settles O27: the slot that CALL writes is inside the stack, so it is the top entry that RET pops. -/
theorem callThenRetReturnsAfterTheCall : Obligations.CallThenRetReturnsAfterTheCall := by
  intro s nnn room slots
  have pushed : (s.stack.set s.depth (s.pc + 2))[s.depth + 1 - 1]? = some (s.pc + 2) :=
    List.getElem?_set_self (slots ▸ room)
  rw [execAll_cons (execCall_of_room room.ne nnn)]
  exact execAll_cons (execRet_of_top (Nat.succ_ne_zero s.depth) pushed) []

/-! ### Jumps (R102, R108) -/

/-- Settles O25: a packed word is its weighted sum, and zero extension keeps the number. -/
theorem jumpSetsPc : Obligations.JumpSetsPc :=
  fun _ nnn => ⟨packA_toNat 0x1#4 nnn, zextAddr nnn, zextAddr_toNat nnn, rfl⟩

/-- An address and a byte never wrap around 16 bits (D31). -/
theorem zextAddr_add_zextByte_toNat (nnn : Addr12) (b : Byte) :
    (zextAddr nnn + zextByte b).toNat = nnn.toNat + b.toNat := by
  have := nnn.isLt
  have := b.isLt
  rw [BitVec.toNat_add, zextAddr_toNat, zextByte_toNat, Nat.mod_eq_of_lt (by omega)]

/-- Settles O31: the sum stays below 2^16. -/
theorem computedJumpAddsV0 : Obligations.ComputedJumpAddsV0 :=
  fun s nnn => ⟨zextAddr nnn + zextByte s.v[(0 : Reg)], zextAddr_add_zextByte_toNat nnn _, rfl⟩

/-! ### Skips (R104 to R107) -/

theorem skipIf_beq (a b : Byte) (s : State) :
    skipIf (a == b) s = .next { s with pc := if a = b then s.pc + 4 else s.pc + 2 } := by
  simp only [skipIf_eq, beq_iff_eq]

theorem skipIf_bne (a b : Byte) (s : State) :
    skipIf (a != b) s = .next { s with pc := if a ≠ b then s.pc + 4 else s.pc + 2 } := by
  simp only [skipIf_eq, bne_iff_ne]

/-- Settles O29: both instructions skip on a comparison of V[x] with kk. -/
theorem immediateSkipsCompareExactly : Obligations.ImmediateSkipsCompareExactly :=
  fun s x kk => ⟨packXK_toNat 0x3#4 x kk, packXK_toNat 0x4#4 x kk, skipIf_beq s.v[x] kk s, skipIf_bne s.v[x] kk s⟩

/-- Settles O30: both instructions skip on a comparison of V[x] with V[y]. -/
theorem registerSkipsCompareExactly : Obligations.RegisterSkipsCompareExactly :=
  fun s x y => ⟨skipIf_beq s.v[x] s.v[y] s, skipIf_bne s.v[x] s.v[y] s⟩

end Sys2Proof.Machine

namespace Sys2Proof.Machine

/-! ## Register loads, arithmetic and logic, the index register, random (spec/41_register_alu.md R130 to R143) -/

/-! ### Loads and bitwise logic (R130, R132 to R135, R141) -/

/-- Settles O32: the two words are weighted sums, and both instructions write V[x] and advance. -/
theorem loadsSetVx : Obligations.LoadsSetVx :=
  fun _ x y kk => ⟨packXK_toNat 0x6#4 x kk, packXYN_toNat 0x8#4 x y 0x0#4, rfl, rfl⟩

/-- Settles O38: a packed word is its weighted sum, and zero extension keeps the number. -/
theorem loadIndexSetsI : Obligations.LoadIndexSetsI :=
  fun _ nnn => ⟨packA_toNat 0xA#4 nnn, zextAddr nnn, zextAddr_toNat nnn, rfl⟩

/-- Settles O34: the results are the bitwise operations of bit vectors. -/
theorem logicOperatesBitwise : Obligations.LogicOperatesBitwise :=
  fun s x y => ⟨s.v[x] ||| s.v[y], s.v[x] &&& s.v[y], s.v[x] ^^^ s.v[y],
    fun _ _ => ⟨BitVec.getLsbD_or, BitVec.getLsbD_and, BitVec.getLsbD_xor⟩, rfl, rfl, rfl⟩

/-! ### Sums and differences with a flag (R136, R137, R139) -/

theorem flagByte_toNat (p : Prop) [Decidable p] : (flagByte p).toNat = if p then 1 else 0 := by
  by_cases h : p <;> simp [flagByte, h]

/-- Settles O35: the sum of bit vectors is the sum modulo 2^8, and the flag asks about the sum of the numbers. -/
theorem addSetsCarry : Obligations.AddSetsCarry :=
  fun s x y => ⟨s.v[x] + s.v[y], carryFlag s.v[x] s.v[y], BitVec.toNat_add .., flagByte_toNat _, rfl⟩

/-- The difference of two bytes, the borrowed 256 written first, so that no subtraction of numbers is cut off. -/
theorem byte_sub_toNat (a b : Byte) : (a - b).toNat = (256 + a.toNat - b.toNat) % 256 := by
  have := b.isLt
  rw [BitVec.toNat_sub, Nat.sub_add_comm (by omega)]

/-- Settles O36: both differences are taken modulo 2^8, and the flag compares the numbers. -/
theorem subtractionsSetNoBorrow : Obligations.SubtractionsSetNoBorrow :=
  fun s x y =>
    ⟨⟨s.v[x] - s.v[y], noBorrowFlag s.v[x] s.v[y], byte_sub_toNat _ _, flagByte_toNat _, rfl⟩,
      ⟨s.v[y] - s.v[x], noBorrowFlag s.v[y] s.v[x], byte_sub_toNat _ _, flagByte_toNat _, rfl⟩⟩

/-! ### Shifts (R138, R140) -/

theorem and_one_toNat (b : Byte) : (b &&& 1).toNat = b.toNat % 2 :=
  (BitVec.toNat_and b 1).trans (Nat.and_one_is_mod b.toNat)

theorem shiftedOutLeft_toNat (a : Byte) : (shiftedOutLeft a).toNat = a.toNat / 128 := by
  have := a.isLt
  rw [shiftedOutLeft, and_one_toNat, BitVec.toNat_ushiftRight, Nat.shiftRight_eq_div_pow]
  omega

theorem shiftLeft_one_toNat (a : Byte) : (a <<< 1).toNat = a.toNat * 2 % 256 := by
  rw [BitVec.toNat_shiftLeft, Nat.shiftLeft_eq]

/-- Settles O37: a shift by one halves or doubles the number, and the bit that leaves is a remainder or a quotient of it. -/
theorem shiftsSetTheBitShiftedOut : Obligations.ShiftsSetTheBitShiftedOut :=
  fun s x _ =>
    ⟨⟨s.v[x] >>> 1, shiftedOutRight s.v[x], BitVec.toNat_ushiftRight .., and_one_toNat _, rfl⟩,
      ⟨s.v[x] <<< 1, shiftedOutLeft s.v[x], shiftLeft_one_toNat _, shiftedOutLeft_toNat _, rfl⟩⟩

/-! ### Random (R143, R224) -/

theorem drawByte_of_script_cons {g : RandomSource} {b : Byte} {rest : List Byte} (h : g.script = b :: rest) :
    drawByte g = (b, { g with script := rest, drawn := g.drawn + 1 }) := by
  simp only [drawByte, h]

theorem drawByte_of_script_nil {g : RandomSource} (h : g.script = []) :
    drawByte g = (Config.randByte g.id g.drawn, { g with drawn := g.drawn + 1 }) := by
  simp only [drawByte, h]

/-- What RND does with whatever the draw answers. -/
theorem execRnd_of_draw {s : State} {b : Byte} {g : RandomSource} (draw : drawByte s.rand = (b, g)) (x : Reg)
    (kk : Byte) :
    exec (.rnd x kk) s = .next { s with v := s.v.set x (b &&& kk), pc := s.pc + 2, rand := g } := by
  simp only [exec, execRnd, draw, advance_eq, setV]

/-- Settles O39: whether a byte is known decides what the draw answers, and RND makes one draw. -/
theorem randomMasksOneDrawnByte : Obligations.RandomMasksOneDrawnByte :=
  fun _ x kk => ⟨fun _ _ known => execRnd_of_draw (drawByte_of_script_cons known) x kk,
    fun empty => execRnd_of_draw (drawByte_of_script_nil empty) x kk⟩

end Sys2Proof.Machine

namespace Sys2Proof.Machine

/-! ## The display, and reads that leave memory (spec/42_display.md R160 to R163, 43_memory_transfer.md R182) -/

/-! ### The XOR of a sprite onto a buffer (R161) -/

/-- The buffer `d`, with `hit`, after the `n` sprite rows at I are XORed onto it from origin `(vx, vy)`. -/
def xorSprite (s : State) (vx vy n : Nat) (d : Display) : Display × Bool :=
  flipPixels d (spritePoints s.w s.h vx vy 0 (spriteRows s n))

theorem execDrw_of_readable {s : State} {n : Nibble} (h : Readable s s.i.toNat n.toNat) (x y : Reg) :
    exec (.drw x y n) s = .next { s with
      pixels := (xorSprite s s.v[x].toNat s.v[y].toNat n.toNat s.pixels).1
      v := s.v.set 15 (flagByte (xorSprite s s.v[x].toNat s.v[y].toNat n.toNat s.pixels).2)
      pc := s.pc + 2 } :=
  congrArg (withAccess (.drw x y n) s · (drawRows x y s)) (readBytes_ok h)

/-- Another buffer, register file or PC matters to DRW only where it reads them: pixels, V[x] and V[y]. -/
theorem execDrw_of_readable_at {s : State} {n : Nibble} (h : Readable s s.i.toNat n.toNat) {x y : Reg} (d : Display)
    {v : Vector Byte 16} (pc : Word) (sameX : v[x] = s.v[x]) (sameY : v[y] = s.v[y]) :
    exec (.drw x y n) { s with pixels := d, v := v, pc := pc } = .next { s with
      pixels := (xorSprite s s.v[x].toNat s.v[y].toNat n.toNat d).1
      v := v.set 15 (flagByte (xorSprite s s.v[x].toNat s.v[y].toNat n.toNat d).2)
      pc := pc + 2 } := by
  rw [← sameX, ← sameY]
  exact execDrw_of_readable (s := { s with pixels := d, v := v, pc := pc }) h x y

section
variable {s : State} (inv : Inv s) {d : Display} (shaped : Shaped d s.w s.h) (vx vy n : Nat)
include inv shaped

theorem xorSprite_shaped : Shaped (xorSprite s vx vy n d).1 s.w s.h := by
  obtain ⟨keeps, -⟩ := flipPixels_spec shaped (spritePoints_inside inv.width inv.height vx vy 0 (spriteRows s n))
  exact keeps

theorem pixelAt_xorSprite (px py : Nat) : pixelAt (xorSprite s vx vy n d).1 px py =
    (pixelAt d px py ^^ decide (spriteVisits s vx vy n px py % 2 = 1)) := by
  obtain ⟨-, flips, -⟩ := flipPixels_spec shaped (spritePoints_inside inv.width inv.height vx vy 0 (spriteRows s n))
  rw [xorSprite, flips, count_spritePoints_rows]

/-- A pixel that is visited is on the grid, so the search for a collision may stay there. -/
theorem xorSprite_hit_iff : (xorSprite s vx vy n d).2 = true ↔ ∃ px < s.w, ∃ py < s.h,
    (pixelAt d px py = true ∧ 1 ≤ spriteVisits s vx vy n px py) ∨ 2 ≤ spriteVisits s vx vy n px py := by
  have inside := spritePoints_inside inv.width inv.height vx vy 0 (spriteRows s n)
  obtain ⟨-, -, hit⟩ := flipPixels_spec shaped inside
  rw [xorSprite, hit]
  constructor
  · rintro ⟨⟨px, py⟩, visited⟩
    have listed : 1 ≤ (spritePoints s.w s.h vx vy 0 (spriteRows s n)).count (px, py) := by omega
    obtain ⟨hx, hy⟩ := inside _ (List.count_pos_iff.1 listed)
    rw [count_spritePoints_rows] at visited
    exact ⟨px, hx, py, hy, visited⟩
  · rintro ⟨px, -, py, -, visited⟩
    rw [← count_spritePoints_rows] at visited
    exact ⟨(px, py), visited⟩

/-- XORing the same sprite at the same place twice flips every pixel an even number of times. -/
theorem xorSprite_twice : (xorSprite s vx vy n (xorSprite s vx vy n d).1).1 = d := by
  have once := xorSprite_shaped inv shaped vx vy n
  refine display_ext (xorSprite_shaped inv once vx vy n) shaped fun px _ py _ => ?_
  rw [pixelAt_xorSprite inv once, pixelAt_xorSprite inv shaped, Bool.xor_assoc, Bool.xor_self, Bool.xor_false]

/-- A pixel that the first draw lights on a dark buffer is lit and visited when the second draw comes to it. -/
theorem xorSprite_twice_hits (dark : ∀ px < s.w, ∀ py < s.h, pixelAt d px py = false)
    (lights : ∃ px < s.w, ∃ py < s.h, pixelAt (xorSprite s vx vy n d).1 px py = true) :
    (xorSprite s vx vy n (xorSprite s vx vy n d).1).2 = true := by
  obtain ⟨px, hx, py, hy, lit⟩ := lights
  have visited : spriteVisits s vx vy n px py % 2 = 1 := by
    simpa [pixelAt_xorSprite inv shaped, dark px hx py hy] using lit
  have once := xorSprite_shaped inv shaped vx vy n
  exact (xorSprite_hit_iff inv once vx vy n).2 ⟨px, hx, py, hy, .inl ⟨lit, by omega⟩⟩

end

theorem flagByte_eq_one_iff (b : Bool) : flagByte b = 1 ↔ b = true := by cases b <;> decide

/-- Settles O41: `xorSprite` in closed form gives the buffer and the flag. -/
theorem drawXorsTheSpriteAndDetectsCollision : Obligations.DrawXorsTheSpriteAndDetectsCollision := by
  intro s x y n inv readable
  obtain ⟨rows, columns⟩ := xorSprite_shaped inv inv.shaped s.v[x].toNat s.v[y].toNat n.toNat
  exact ⟨_, _, execDrw_of_readable readable x y, rows, columns,
    fun px _ py _ => pixelAt_xorSprite inv inv.shaped _ _ _ px py, flagByte_bit _,
    (flagByte_eq_one_iff _).trans (xorSprite_hit_iff inv inv.shaped _ _ _)⟩

/-- Settles O42: nothing that places the sprite changes in the first draw, so the second XORs the same pixels. -/
theorem drawingTwiceRestoresTheDisplay : Obligations.DrawingTwiceRestoresTheDisplay := by
  intro s t x y n inv readable first sameX sameY
  obtain rfl := Host.Outcome.next.inj (first.symm.trans (execDrw_of_readable readable x y))
  refine ⟨_, execDrw_of_readable_at readable _ _ sameX sameY, ?_, fun dark lights => ?_⟩
  · exact xorSprite_twice inv inv.shaped _ _ _
  · refine (getElem_set_reg _ 15 15 _).trans ((flagByte_eq_one_iff _).2 ?_)
    exact xorSprite_twice_hits inv inv.shaped _ _ _ dark lights

/-! ### CLS (R160) -/

/-- Settles O40: the buffer is the dark display of the current dimensions. -/
theorem clearDarkensEveryPixel : Obligations.ClearDarkensEveryPixel := by
  intro s
  obtain ⟨rows, columns⟩ := darkDisplay_shaped s.w s.h
  exact ⟨rfl, darkDisplay s.w s.h, rfl, rows, columns, fun px _ py _ => pixelAt_darkDisplay s.w s.h px py⟩

/-! ### The address of a glyph (R162, R163) -/

theorem lowNibble_val (b : Byte) : (lowNibble b).val = b.toNat % 16 := BitVec.toNat_setWidth ..

/-- The glyphs of a valid configuration end at or before PROGRAM_START, so I holds the address of each. -/
theorem glyphAddress_toNat {c : Config} (valid : c.Valid) (d : Reg) :
    (glyphAddress c d).toNat = c.fontBase + 5 * d.val := by
  obtain ⟨fontEnd, start, size, -, -, -, glyph, -⟩ := valid
  have := d.isLt
  rw [glyphAddress, glyph, BitVec.toNat_ofNat, Nat.mod_eq_of_lt (by omega)]

/-- Settles O43: the 16 glyphs of 5 bytes are the 80 bytes that the invariant holds to FONT_DATA. -/
theorem glyphAddressPointsAtTheGlyph : Obligations.GlyphAddressPointsAtTheGlyph := by
  intro s x inv
  have value := glyphAddress_toNat inv.config (lowNibble s.v[x])
  rw [lowNibble_val] at value
  refine ⟨glyphAddress s.cfg (lowNibble s.v[x]), value, rfl, ?_, fun j hj => ?_⟩
  · obtain ⟨fontEnd, -, -, -, -, -, glyph, -⟩ := inv.config
    omega
  · rw [value, Nat.add_assoc]
    exact inv.font _ (by omega)

/-! ### Reads that leave memory (R53, R211, R217) -/

/-- An instruction that reads at I halts at the first address outside memory, whatever it would do with the bytes. -/
theorem readAtI_halts {s : State} {n k : Nat} (hk : k < n) (outside : s.cfg.memSize ≤ s.i.toNat + k)
    (inside : ∀ j < k, s.i.toNat + j < s.cfg.memSize) (ins : Instr) (go : List Byte → Result) :
    withAccess ins s (readBytes s s.i.toNat n) go =
      .next (haltedWith s .addressFault (some (encode ins)) (some (s.i.toNat + k))) := by
  rw [readBytes_error hk outside inside, withAccess_error]

/-- Settles O48: Dxyn and Fx65 read all their bytes before they write anything. -/
theorem readsOutsideMemoryHalt : Obligations.ReadsOutsideMemoryHalt :=
  fun _ x _ outside inside => ⟨fun y n hk => readAtI_halts hk outside inside (.drw x y n) _,
    fun hk => readAtI_halts (Nat.lt_succ_of_le hk) outside inside (.ldVxMem x) _⟩

end Sys2Proof.Machine


namespace Sys2Proof.Machine

/-! ## BCD store, register block store and load (spec/43_memory_transfer.md R180 to R182) -/

/-! ### A store at I completes or halts (R54, R211, R217) -/

section
variable {s : State} {bytes : List Byte} {k : Nat}

/-- An instruction that stores at I completes where it may write all its bytes. -/
theorem storeAtI_completes (writable : Writable s s.i.toNat bytes.length) (ins : Instr) :
    withAccess ins s (writeBytes s s.i.toNat bytes) advance =
      .next { s with mem := (pokeBytes s s.i.toNat bytes).mem, pc := s.pc + 2 } := by
  rw [writeBytes_ok writable, withAccess_ok, advance_eq, pokeBytes_frame]

/-- An instruction that stores at I halts at the first address it may not write, whatever the bytes are. -/
theorem storeAtI_halts (hk : k < bytes.length)
    (refused : s.cfg.memSize ≤ s.i.toNat + k ∨ inFont s.cfg (s.i.toNat + k) = true)
    (writable : Writable s s.i.toNat k) (ins : Instr) :
    withAccess ins s (writeBytes s s.i.toNat bytes) advance =
      .next (haltedWith s .addressFault (some (encode ins)) (some (s.i.toNat + k))) := by
  rw [writeBytes_error hk refused writable, withAccess_error]

/-! ### What a completed store leaves in memory -/

variable {a : Nat} (canonical : Memory.wf s.cfg s.mem) (fits : a + bytes.length ≤ s.cfg.memSize) (pc : Word)
include canonical fits

theorem byteAt_stored_inside (hk : k < bytes.length) :
    byteAt { s with mem := (pokeBytes s a bytes).mem, pc := pc } (a + k) = bytes[k] := by
  rw [byteAt_stored canonical fits, if_pos ⟨Nat.le_add_right .., Nat.add_lt_add_left hk a⟩, Nat.add_sub_cancel_left,
    List.getD_eq_getElem _ _ hk]

theorem byteAt_stored_outside {b : Nat} (outside : b < a ∨ a + bytes.length ≤ b) :
    byteAt { s with mem := (pokeBytes s a bytes).mem, pc := pc } b = byteAt s b := by
  rw [byteAt_stored canonical fits, if_neg (by omega)]

end

/-! ### Refused stores (R211, R217) -/

/-- Settles O49: `writeBytes` ends in an error at the refused address, and the bytes written before it are discarded. -/
theorem refusedStoresHalt : Obligations.RefusedStoresHalt :=
  fun s x _ refused writable =>
    ⟨fun hk => storeAtI_halts (by rwa [bcdDigits_length]) refused writable (.ldB x),
      fun hk => storeAtI_halts (by rwa [registersUpTo_length, Nat.lt_succ_iff]) refused writable (.ldMemVx x)⟩

/-! ### Fx33 (R180) -/

/-- Each of the three digits fits a byte, so the bytes stored are the digits as numbers. -/
theorem bcdDigits_toNat (b : Byte) : (bcdDigits b)[0].toNat = b.toNat / 100 ∧
    (bcdDigits b)[1].toNat = b.toNat / 10 % 10 ∧ (bcdDigits b)[2].toNat = b.toNat % 10 := by
  have := b.isLt
  refine ⟨Nat.mod_eq_of_lt ?_, Nat.mod_eq_of_lt ?_, Nat.mod_eq_of_lt ?_⟩ <;> omega

/-- Settles O45: the stored bytes are the three digits of `bcdDigits`, at I + 0, I + 1 and I + 2. -/
theorem bcdStoresThreeDigits : Obligations.BcdStoresThreeDigits := by
  intro s x canonical writable
  have fits := writable_fits writable
  have stored (k : Nat) (hk : k < 3) := congrArg BitVec.toNat
    (byteAt_stored_inside (bytes := bcdDigits s.v[x]) canonical fits (s.pc + 2) hk)
  obtain ⟨hundreds, tens, units⟩ := bcdDigits_toNat s.v[x]
  exact ⟨_, storeAtI_completes (bytes := bcdDigits s.v[x]) writable (.ldB x), rfl,
    (stored 0 (by decide)).trans hundreds, (stored 1 (by decide)).trans tens, (stored 2 (by decide)).trans units,
    fun _ => byteAt_stored_outside (bytes := bcdDigits s.v[x]) canonical fits (s.pc + 2)⟩

/-! ### Fx55 (R181) -/

/-- Settles O46: V[k] stands at I + k, and an address outside the x + 1 bytes of the block keeps its byte. -/
theorem blockStoreWritesV0ToVx : Obligations.BlockStoreWritesV0ToVx := by
  intro s x canonical writable
  have fits := writable_fits writable
  exact ⟨_, execLdMemVx_of_writable writable, rfl,
    fun _ hk => byteAt_storedRegisters canonical fits hk (s.pc + 2),
    fun _ outside => byteAt_stored_outside canonical (by rwa [registersUpTo_length]) (s.pc + 2)
      (by rwa [registersUpTo_length])⟩

/-! ### Fx65 (R182) -/

/-- Fx65 raises nothing where it may read (R182). -/
theorem execLdVxMem_of_readable {s : State} {x : Reg} (h : Readable s s.i.toNat (x.val + 1)) : exec (.ldVxMem x) s =
    .next { s with
      v := loadRegisters s.v 0 ((List.range (x.val + 1)).map fun k => byteAt s (s.i.toNat + k)), pc := s.pc + 2 } :=
  congrArg (withAccess (.ldVxMem x) s · fun bytes => advance { s with v := loadRegisters s.v 0 bytes }) (readBytes_ok h)

/-- Loading the values of `f` into V0 to V[x] sets V[k] to `f k` for k up to x and keeps the registers above. -/
theorem loadRegisters_range_getElem (v : Vector Byte 16) (f : Nat → Byte) (x k : Reg) :
    (loadRegisters v 0 ((List.range (x.val + 1)).map f))[k] = if k ≤ x then f k.val else v[k] := by
  have loaded : k ≤ x ↔ k.val < x.val + 1 := Nat.lt_succ_iff.symm
  rw [loadRegisters_getElem]
  by_cases h : k.val < x.val + 1 <;> simp [loaded, h]

/-- Settles O47: the bytes read are those at I to I + x, in the order of the registers they are loaded into. -/
theorem blockLoadReadsV0ToVx : Obligations.BlockLoadReadsV0ToVx :=
  fun s x readable => ⟨_, execLdVxMem_of_readable readable, rfl,
    loadRegisters_range_getElem s.v (fun k => byteAt s (s.i.toNat + k)) x⟩

end Sys2Proof.Machine

namespace Sys2Proof.Machine

/-! ## Keypad and timers (spec/44_timers_keypad.md R190 to R195) -/

/-! ### The key wait (R193, R213) -/

section
variable {s : State}

/-- Two pressed keys with no pressed key below them are the same key. -/
theorem lowestKey_unique {j k : Reg} (hj : s.keys[j] = true) (belowJ : ∀ i : Reg, i < j → s.keys[i] = false)
    (hk : s.keys[k] = true) (belowK : ∀ i : Reg, i < k → s.keys[i] = false) : j = k :=
  le_antisymm (not_lt.1 fun lt => absurd ((belowJ k lt).symm.trans hk) nofun)
    (not_lt.1 fun lt => absurd ((belowK j lt).symm.trans hj) nofun)

theorem execLdVxK_of_lowestKey {k : Reg} (pressed : s.keys[k] = true)
    (below : ∀ j : Reg, j < k → s.keys[j] = false) (x : Reg) :
    exec (.ldVxK x) s = .next { s with v := s.v.set x (BitVec.ofNat 8 k.val), pc := s.pc + 2 } := by
  rcases execLdVxK_cases x s with ⟨-, unpressed, -⟩ | ⟨j, -, hj, belowJ, stores⟩
  · exact absurd ((unpressed k).symm.trans pressed) nofun
  · obtain rfl := lowestKey_unique hj belowJ pressed below
    exact stores

variable (unpressed : ∀ k : Reg, s.keys[k] = false)
include unpressed

theorem leastKey_of_unpressed : leastKey s = none :=
  List.find?_eq_none.2 fun k _ => Bool.eq_false_iff.1 (unpressed k)

theorem execLdVxK_of_unpressed (x : Reg) : exec (.ldVxK x) s = .next s := by
  rcases execLdVxK_cases x s with ⟨-, -, holds⟩ | ⟨k, -, pressed, -⟩
  · exact holds
  · exact absurd ((unpressed k).symm.trans pressed) nofun

end

/-- Settles O53: there is at most one lowest pressed key; the Step of a held Fx0A leaves the machine running, so its
status is that of Fx0A with no least key. -/
theorem keyWaitTakesTheLowestKeyOrBlocks : Obligations.KeyWaitTakesTheLowestKeyOrBlocks := by
  intro s x
  refine ⟨fun k pressed below => ⟨BitVec.ofNat 8 k.val, Nat.mod_eq_of_lt (k.isLt.trans (by decide)),
    execLdVxK_of_lowestKey pressed below x⟩, fun unpressed => ?_⟩
  have holds := execLdVxK_of_unpressed unpressed x
  refine ⟨holds, fun ⟨running, op, hf, hd⟩ => ?_⟩
  have stays : step s = .next s := (step_of_fetch running hf).trans ((runOpcode_of_decode hd s).trans holds)
  exact ⟨stays, (stepStatus_of_decode stays running hf hd).trans (if_pos (leastKey_of_unpressed unpressed))⟩

/-! ### The timer transfers (R192, R194, R195) -/

/-- Settles O51: each word is a weighted sum, and each instruction copies one byte and advances. -/
theorem timerTransfersCopyTheRegister : Obligations.TimerTransfersCopyTheRegister := by
  intro s x
  have word (kk : Byte) : (packXK 0xF#4 x kk).toNat = 0xF000 + kk.toNat + x.val * 256 :=
    (packXK_toNat 0xF#4 x kk).trans (Nat.add_right_comm ..)
  exact ⟨word 0x07#8, word 0x15#8, word 0x18#8, rfl, rfl, rfl⟩

/-! ### The key skips (R190, R191) -/

/-- The key that V[x] selects, by its number. -/
theorem keyPressed_eq_of_val {s : State} {x k : Reg} (hk : k.val = s.v[x].toNat % 16) : keyPressed s x = s.keys[k] :=
  have selected : lowNibble s.v[x] = k := Fin.ext ((lowNibble_val s.v[x]).trans hk.symm)
  congrArg (fun j : Reg => s.keys[j]) selected

/-- Settles O52: SKP skips on the selected key, and SKNP on its negation. -/
theorem keySkipsTestTheSelectedKey : Obligations.KeySkipsTestTheSelectedKey := by
  intro s x k hk
  have selected := keyPressed_eq_of_val hk
  refine ⟨?_, ?_⟩
  · rw [← selected]
    exact skipIf_eq (keyPressed s x) s
  · simp only [← selected, ← Bool.not_eq_true']
    exact skipIf_eq (!keyPressed s x) s

end Sys2Proof.Machine

namespace Sys2Proof.Machine

/-! ## The fatal halt and the host interface (spec/60_exceptions.md R210 to R231) -/

/-! ### Where a halt record comes from (R210 to R212) -/

/-- A Step that halts a running machine wrote the record of a failed fetch or of its instruction. -/
theorem step_halt_cases {s t : State} {r : HaltRecord} (running : Running s) (h : step s = .next t)
    (ht : t.halt = some r) :
    (∃ a, fetch s = .error a ∧ r = { cause := .addressFault, pc := s.pc, opcode := none, addr := some a }) ∨
    ∃ op ins, fetch s = .ok op ∧ decode op = .ok ins ∧ RaisedBy s r ins := by
  have answers : ∀ {u : State}, step s = .next u → t = u := fun e => Host.Outcome.next.inj (h.symm.trans e)
  have halts : t.halt ≠ s.halt := fun same => absurd (ht.symm.trans (same.trans running)) nofun
  rcases step_cases s with ⟨-, e⟩ | ⟨-, a, hf, e⟩ | ⟨-, op, ins, hf, hd, e⟩ | ⟨-, op, er, -, -, e⟩
  · exact absurd (congrArg State.halt (answers e)) halts
  · obtain rfl := answers e
    exact .inl ⟨a, hf, (Option.some.inj ht).symm⟩
  · rcases exec_raises_or_completes ins s with ⟨r', raised, e'⟩ | ⟨u, e', same⟩
    · obtain rfl := answers (e.trans e')
      obtain rfl := Option.some.inj ht
      exact .inr ⟨op, ins, hf, hd, raised⟩
    · obtain rfl := answers (e.trans e')
      exact absurd same halts
  · obtain rfl := answers e
    exact absurd rfl halts

/-- The record of an instruction that raises holds its opcode, and an address just for an AddressFault (R34, R211). -/
theorem RaisedBy.opcode_addr {s : State} {r : HaltRecord} {ins : Instr} (raised : RaisedBy s r ins) :
    r.opcode = some (encode ins) ∧ (r.addr.isSome ↔ r.cause = .addressFault) := by
  cases ins with
  | ret | call => obtain ⟨-, rfl⟩ := raised; exact ⟨rfl, by simp⟩
  | drw | ldB | ldMemVx | ldVxMem => obtain ⟨k, -, -, rfl⟩ := raised; exact ⟨rfl, by simp⟩
  | _ => exact raised.elim

/-- Settles O12: `step_halts_precisely` says what changed; the recorded word is the fetched one, because the encoding of
a decoded instruction is its word. -/
theorem fatalHaltIsPrecise : Obligations.FatalHaltIsPrecise := by
  intro s t r running h ht
  have change := step_halts_precisely running h ht
  have record : { r with pc := s.pc } = r := Option.some.inj ((congrArg State.halt change).symm.trans ht)
  refine ⟨change.trans (congrArg (fun r => { s with halt := some r }) record), (congrArg HaltRecord.pc record).symm, ?_⟩
  rcases step_halt_cases running h ht with ⟨a, hf, rfl⟩ | ⟨op, ins, hf, hd, raised⟩
  · rw [hf]
    exact ⟨rfl, by simp⟩
  · obtain ⟨opcode, addr⟩ := raised.opcode_addr
    obtain ⟨-, word⟩ := decode_encodes hd
    rw [hf, opcode, word]
    exact ⟨rfl, addr⟩

/-- Settles O13: the six instructions that raise, each with its own cause. -/
theorem haltCausesComeFromTheirInstructions : Obligations.HaltCausesComeFromTheirInstructions := by
  intro s t r running h ht
  rcases step_halt_cases running h ht with ⟨a, hf, rfl⟩ | ⟨op, ins, hf, hd, raised⟩
  · exact ⟨nofun, nofun, fun _ => ⟨a, rfl, .inl hf⟩⟩
  have runs : Decodes s ins := ⟨running, op, hf, hd⟩
  cases ins with
  | call nnn =>
    obtain ⟨full, rfl⟩ := raised
    exact ⟨fun _ => ⟨⟨nnn, runs⟩, full⟩, nofun, nofun⟩
  | ret =>
    obtain ⟨empty, rfl⟩ := raised
    exact ⟨nofun, fun _ => ⟨runs, empty⟩, nofun⟩
  | drw x y n =>
    obtain ⟨k, hk, outside, rfl⟩ := raised
    exact ⟨nofun, nofun, fun _ => ⟨_, rfl, .inr (.inl ⟨x, y, n, k, runs, hk, rfl, outside⟩)⟩⟩
  | ldVxMem x =>
    obtain ⟨k, hk, outside, rfl⟩ := raised
    exact ⟨nofun, nofun, fun _ => ⟨_, rfl, .inr (.inr (.inl ⟨x, k, runs, Nat.le_of_lt_succ hk, rfl, outside⟩))⟩⟩
  | ldB x =>
    obtain ⟨k, hk, refused, rfl⟩ := raised
    exact ⟨nofun, nofun, fun _ => ⟨_, rfl, .inr (.inr (.inr (.inl ⟨x, k, runs, hk, rfl, refused⟩)))⟩⟩
  | ldMemVx x =>
    obtain ⟨k, hk, refused, rfl⟩ := raised
    exact ⟨nofun, nofun, fun _ =>
      ⟨_, rfl, .inr (.inr (.inr (.inr ⟨x, k, runs, Nat.le_of_lt_succ hk, rfl, refused⟩)))⟩⟩
  | _ => exact raised.elim

/-! ### A halted machine (R216, R227) -/

@[simp] theorem pokeBytes_halt (s : State) (a : Nat) (bytes : List Byte) : (pokeBytes s a bytes).halt = s.halt := by
  rw [pokeBytes_frame]

/-- No host operation but Reset ends a halt or changes its record. -/
theorem hostApply_halt_of_halted {s : State} {r : HaltRecord} (h : s.halt = some r) {op : HostOp} (hop : op ≠ .reset) :
    (hostApply s op).1.halt = some r := by
  cases op with
  | load bytes =>
    refine orOutOfBounds_of (P := fun t => t.halt = some r) h fun t hl => ?_
    obtain ⟨-, rfl⟩ := loadProgram_eq_some hl
    exact (pokeBytes_halt ..).trans h
  | step =>
    have same : s = afterStep s := Host.Outcome.next.inj ((step_of_halted h).symm.trans (step_afterStep s))
    exact (congrArg State.halt same.symm).trans h
  | resizeDisplay w height =>
    refine orOutOfBounds_of (P := fun t => t.halt = some r) h fun t hz => ?_
    obtain ⟨-, -, rfl⟩ := resizeDisplay_eq_some hz
    exact h
  | reset => exact absurd rfl hop
  | _ => exact h

/-- Settles O8: a Step of a halted machine answers the same state, so its status is the recorded cause. -/
theorem haltedMachineStaysHalted : Obligations.HaltedMachineStaysHalted :=
  fun _ _ h => ⟨step_of_halted h, stepStatus_of_halt (step_of_halted h) h, fun _ => hostApply_halt_of_halted h, rfl⟩

/-! ### The end of a run at a self-jump (R231) -/

/-- Settles O60: the word 1nnn decodes to JP, which sets PC to the value it has. -/
theorem selfJumpChangesNothing : Obligations.SelfJumpChangesNothing := by
  rintro s ⟨running, nnn, hf, target⟩
  have hd : decode (encode (.jp nnn)) = .ok (.jp nnn) := decode_encode rfl
  have stays : step s = .next s := calc
    step s = exec (.jp nnn) s := (step_of_fetch running hf).trans (runOpcode_of_decode hd s)
    _ = .next { s with pc := nnn.setWidth 16 } := rfl
    _ = .next s := by rw [target]
  exact ⟨stays, stepStatus_of_decode stays running hf hd⟩

/-! ### Load (R222) -/

/-- Settles O55: an image that fits is stored from PROGRAM_START up, inside memory; a longer one is refused. -/
theorem loadCopiesOrIsOutOfBounds : Obligations.LoadCopiesOrIsOutOfBounds := by
  intro s b inv
  have ⟨_, start, _⟩ := inv.config
  refine ⟨fun fits => ?_, fun long => congrArg (orOutOfBounds s) (if_pos long)⟩
  have reads := byteAt_pokeBytes inv.memory (a := s.cfg.programStart) (bs := b) (by omega)
  refine ⟨_, congrArg (orOutOfBounds s) (if_neg (not_lt.2 fits)), pokeBytes_frame .., fun k hk => ?_,
    fun a outside => ?_⟩
  · rw [reads, if_pos (by omega), Nat.add_sub_cancel_left]
  · rw [reads, if_neg (by omega)]

/-! ### SetKeypad and TickTimers (R221, R223) -/

theorem step_keys {s t : State} (h : step s = .next t) : t.keys = s.keys := by
  rcases step_effect h with rfl | ⟨-, effect⟩
  · rfl
  · cases effect <;> rfl

/-- Settles O56: no effect of a Step names the keypad. -/
theorem setKeypadWritesEveryKeyAndNoStepWritesAny : Obligations.SetKeypadWritesEveryKeyAndNoStepWritesAny :=
  ⟨fun _ _ => rfl, fun _ _ => step_keys⟩

/-- A timer above 0 goes down by one, and a timer at 0 stays there: subtraction on the natural numbers. -/
theorem ticked_toNat (b : Byte) : (if b = 0 then b else b - 1).toNat = b.toNat - 1 := by
  split
  · next zero => rw [zero]; rfl
  · next nonzero => bv_omega

/-- Settles O54: TickTimers writes the two ticked timers and nothing else. -/
theorem tickDecrementsTimersToZero : Obligations.TickDecrementsTimersToZero :=
  fun s => ⟨_, _, ticked_toNat s.dt, ticked_toNat s.st, rfl⟩

/-! ### ResizeDisplay (R226) -/

theorem exceedsMax_eq_false_iff (size : Nat) (bound : Option Nat) :
    exceedsMax size bound = false ↔ ∀ m, bound = some m → size ≤ m := by
  cases bound <;> simp [exceedsMax]

/-- ResizeDisplay refuses a size below 1 or above a maximum that is set. -/
theorem resizeDisplay_eq_none_iff (s : State) (w h : Nat) : resizeDisplay s w h = none ↔
    ¬ (1 ≤ w ∧ 1 ≤ h ∧ (∀ m, s.cfg.displayMaxW = some m → w ≤ m) ∧ (∀ m, s.cfg.displayMaxH = some m → h ≤ m)) := by
  rw [← exceedsMax_eq_false_iff, ← exceedsMax_eq_false_iff, resizeDisplay, ite_eq_left_iff, ← Bool.not_eq_false]
  simp [Nat.one_le_iff_ne_zero, and_assoc]

/-- Settles O57: an allowed size is not refused, and `resizeDisplay_eq_some` names the one other answer. -/
theorem resizeClearsOrIsOutOfBounds : Obligations.ResizeClearsOrIsOutOfBounds := by
  intro s w h
  have refuses := resizeDisplay_eq_none_iff s w h
  refine ⟨fun allowed => ?_, fun refused => congrArg (orOutOfBounds s) (refuses.2 refused)⟩
  obtain ⟨t, answer⟩ := Option.ne_none_iff_exists'.1 (mt refuses.1 (not_not_intro allowed))
  obtain ⟨-, -, rfl⟩ := resizeDisplay_eq_some answer
  exact congrArg (orOutOfBounds s) answer

end Sys2Proof.Machine
